-- ==== Sys2Proof/Word.lean ====
section
/-!
DEFINITION. The word and byte types of WYH-CORE (spec/00_scope.md R7, R11: every datapath value is an unsigned 64-bit
integer; spec/20_memory.md R50: a key location holds 8 bits).
-/

namespace Sys2Proof

/-- A datapath value: `XLEN` = 64 bits (R7). -/
abbrev Word := BitVec 64

/-- One byte of the key space (R50). -/
abbrev Byte := BitVec 8

end Sys2Proof
end

