-- ==== Sys2Proof/Machine/Mix.lean ====
section
/-!
DEFINITION. The wide-multiply functions (spec/40_mix_primitives.md R90 to R92).
-/

namespace Sys2Proof.Machine

/-- `mum(a, b) = (lo, hi)`, the halves of the exact 128-bit product (R90). -/
def mum (a b : Word) : Word × Word :=
  (BitVec.ofNat 64 (a.toNat * b.toNat), BitVec.ofNat 64 (a.toNat * b.toNat / 2 ^ 64))

/-- `mix(a, b) = lo XOR hi` (R92). -/
def mix (a b : Word) : Word :=
  (mum a b).1 ^^^ (mum a b).2

/-- The split form of the wide multiply, from four 32×32→64 partial products (R91). -/
def mumSplit (a b : Word) : Word × Word :=
  let lowHalf (x : Nat) := x % 2 ^ 32
  let highHalf (x : Nat) := x / 2 ^ 32
  let p00 := lowHalf a.toNat * lowHalf b.toNat
  let p01 := lowHalf a.toNat * highHalf b.toNat
  let p10 := highHalf a.toNat * lowHalf b.toNat
  let p11 := highHalf a.toNat * highHalf b.toNat
  let mid := highHalf p00 + lowHalf p01 + lowHalf p10
  (BitVec.ofNat 64 (lowHalf mid * 2 ^ 32 + lowHalf p00),
    BitVec.ofNat 64 (p11 + highHalf p01 + highHalf p10 + highHalf mid))

end Sys2Proof.Machine
end

