-- ==== Sys2Proof/Config.lean ====
section
/-!
DEFINITION. What an implementation fixes (spec/00_scope.md R8) and the free value of the model
(spec/10_state.md R33). The two records' VALUES are in Machine/Variants.lean.
-/

namespace Sys2Proof

/-- A row of the window table `V.WIN` (R8, spec/42_seed_and_dispatch.md R118): the offsets of the four 4-byte reads. -/
structure Windows where
  /-- high half of the lane `a` -/
  ah : Word
  /-- low half of the lane `a` -/
  al : Word
  /-- high half of the lane `b` -/
  bh : Word
  /-- low half of the lane `b` -/
  bl : Word
  deriving DecidableEq, Repr

/-- The variant record `V` (R8): everything that differs between the variants. -/
structure VariantRecord where
  /-- `V.K[0]` -/
  k0 : Word
  /-- `V.K[1]` -/
  k1 : Word
  /-- `V.K[2]` -/
  k2 : Word
  /-- `V.K[3]` -/
  k3 : Word
  /-- `V.WIN`: a row for each length it is a function of (4..16), none elsewhere -/
  win : Word → Option Windows
  /-- `V.INCL48`: the 48-byte stage compares inclusively -/
  incl48 : Bool
  /-- `V.PAD`: the hexadecimal output is zero-padded -/
  pad : Bool

/-- FREE VALUE (log 3): the value the `k`-th host read of a register that holds no value returns (R33, 92 D24: a draw
under no law, not necessarily the same on two reads). It has no body, so nothing can be proved of it. -/
opaque Config.freeRead : Nat → Word

end Sys2Proof
end

