-- ==== Sys2Proof/Syntax.lean ====
section
/-!
DEFINITION. The eighteen operations of spec/opcode_table.json (spec/30_encoding.md R70), and the raw codes that name
them in the three formats of R71.
-/

namespace Sys2Proof

/-- The operations (R70). A primitive carries the values at its inputs (R73); a phase operation has no operand fields
(R72: its operands are the named registers); a host command carries its bit 4 (R75). -/
inductive Instr where
  /-- `MUM a, b` (R90). -/
  | mum (a b : Word)
  /-- `MIX a, b` (R92). -/
  | mix (a b : Word)
  /-- `READ3 len` (R100). -/
  | read3 (len : Word)
  /-- `READ4 offset` (R101). -/
  | read4 (offset : Word)
  /-- `READ8 offset` (R102). -/
  | read8 (offset : Word)
  /-- `SEEDMIX` (R113). -/
  | seedmix
  /-- `DISPATCH` (R115). -/
  | dispatch
  /-- `LD0` (R116). -/
  | ld0
  /-- `LD3` (R117). -/
  | ld3
  /-- `LD4` (R119). -/
  | ld4
  /-- `LONGENT` (R132). -/
  | longent
  /-- `BLK48` (R133). -/
  | blk48
  /-- `FOLD3` (R134). -/
  | fold3
  /-- `BLK16` (R135). -/
  | blk16
  /-- `TAIL` (R136). -/
  | tail
  /-- `FINAL` (R150). -/
  | final
  /-- `NOP`, with bit 4 of its word, which it ignores (R31, R75). -/
  | nop (v : BitVec 1)
  /-- `START`, with the variant select `VAR` = bit 4 of its word (R75, R76). -/
  | start (var : BitVec 1)
  deriving DecidableEq, Repr

/-- A code as it stands where its format lives (R71): the 4 bits of `PHASE`, a 3-bit function label beside the values
at the primitive's inputs, or the 8-bit word of a host write to `CMD`. -/
inductive Code where
  /-- Format `P`. -/
  | phase (code : BitVec 4)
  /-- Format `F`: the label `FSEL` and the operand values, in the order of R73's inputs column. -/
  | fn (fsel : BitVec 3) (operands : List Word)
  /-- Format `C`. -/
  | command (word : BitVec 8)
  deriving DecidableEq, Repr

end Sys2Proof
end

