-- ==== Sys2Proof/WellFormed.lean ====
section
/-!
DEFINITION. The checks an operation (spec/41_byte_readers.md R100 to R102) and a raw code (spec/30_encoding.md R72,
R73, R75, R78) must pass.
-/

namespace Sys2Proof

/-- An operation as the spec admits it: `READ3` has `1 ≤ len ≤ 3` (R100), and a read window ends inside the 64-bit
offset space without wrap-around, `o + k < 2^64` (R56). -/
def Instr.wf : Instr → Bool
  | .read3 len => decide (1 ≤ len.toNat ∧ len.toNat ≤ 3)
  | .read4 offset => decide (offset.toNat + 4 < 2 ^ 64)
  | .read8 offset => decide (offset.toNat + 8 < 2 ^ 64)
  | .mum _ _ | .mix _ _ => true
  | .seedmix | .dispatch | .ld0 | .ld3 | .ld4 => true
  | .longent | .blk48 | .fold3 | .blk16 | .tail | .final => true
  | .nop _ | .start _ => true

/-- A raw code that selects an operation: `PHASE` 0x1..0xB (R72; `IDLE` and `DONE` select none, 0xD..0xF are reserved),
`FSEL` 0..4 with as many operands as R73 gives the primitive, a `CMD` word whose bits 7:5 are zero and whose `OP` is 0
or 1 (R75). -/
def Code.wf : Code → Bool
  | .phase c => decide (1 ≤ c.toNat ∧ c.toNat ≤ 11)
  | .fn f xs =>
      (decide (f.toNat ≤ 1) && decide (xs.length = 2)) ||
      (decide (2 ≤ f.toNat ∧ f.toNat ≤ 4) && decide (xs.length = 1))
  | .command w => decide (w.extractLsb' 5 3 = 0#3 ∧ (w.extractLsb' 0 4).toNat ≤ 1)

end Sys2Proof
end

