-- ==== Sys2Proof/Decode.lean ====
section
/-!
DEFINITION. The phase codes, the decoder and the encoder of the three formats (spec/30_encoding.md R72, R73, R75, R78),
and the host's numbering of table words.
-/

namespace Sys2Proof

/-- Why a code selects no operation. -/
inductive Rejection where
  /-- `PHASE` is `IDLE` or `DONE`, in which the sequencer has no step (R72, R164). -/
  | noOperation
  /-- `PHASE` 0xD, 0xE or 0xF: "invalid" (R78 a). -/
  | reservedPhase
  /-- `FSEL` 5, 6 or 7 selects no primitive (R78 b). -/
  | reservedFunction
  /-- A primitive's label beside another number of operands than R73 gives it. -/
  | operandCount
  /-- A `CMD` word other than 0x00, 0x10, 0x01, 0x11 (R78 c). -/
  | reservedCommand
  deriving DecidableEq, Repr

/-- What a decoder answers. -/
inductive Decoded where
  /-- the code selects this operation -/
  | instr (i : Instr)
  /-- the code selects none, by name -/
  | rejected (why : Rejection)
  deriving DecidableEq, Repr

/-- `IDLE` 0x0 (R72). -/
@[simp] abbrev Phase.idle : BitVec 4 := 0x0#4
/-- `SEEDMIX` 0x1 (R72). -/
@[simp] abbrev Phase.seedmix : BitVec 4 := 0x1#4
/-- `DISPATCH` 0x2 (R72). -/
@[simp] abbrev Phase.dispatch : BitVec 4 := 0x2#4
/-- `LD0` 0x3 (R72). -/
@[simp] abbrev Phase.ld0 : BitVec 4 := 0x3#4
/-- `LD3` 0x4 (R72). -/
@[simp] abbrev Phase.ld3 : BitVec 4 := 0x4#4
/-- `LD4` 0x5 (R72). -/
@[simp] abbrev Phase.ld4 : BitVec 4 := 0x5#4
/-- `LONGENT` 0x6 (R72). -/
@[simp] abbrev Phase.longent : BitVec 4 := 0x6#4
/-- `BLK48` 0x7 (R72). -/
@[simp] abbrev Phase.blk48 : BitVec 4 := 0x7#4
/-- `FOLD3` 0x8 (R72). -/
@[simp] abbrev Phase.fold3 : BitVec 4 := 0x8#4
/-- `BLK16` 0x9 (R72). -/
@[simp] abbrev Phase.blk16 : BitVec 4 := 0x9#4
/-- `TAIL` 0xA (R72). -/
@[simp] abbrev Phase.tail : BitVec 4 := 0xA#4
/-- `FINAL` 0xB (R72). -/
@[simp] abbrev Phase.final : BitVec 4 := 0xB#4
/-- `DONE` 0xC (R72). -/
@[simp] abbrev Phase.done : BitVec 4 := 0xC#4

/-- Format `P`: total on the sixteen codes (R72, R78 a). -/
def decodePhase (c : BitVec 4) : Decoded :=
  if c = Phase.seedmix then .instr .seedmix
  else if c = Phase.dispatch then .instr .dispatch
  else if c = Phase.ld0 then .instr .ld0
  else if c = Phase.ld3 then .instr .ld3
  else if c = Phase.ld4 then .instr .ld4
  else if c = Phase.longent then .instr .longent
  else if c = Phase.blk48 then .instr .blk48
  else if c = Phase.fold3 then .instr .fold3
  else if c = Phase.blk16 then .instr .blk16
  else if c = Phase.tail then .instr .tail
  else if c = Phase.final then .instr .final
  else if c = Phase.idle ∨ c = Phase.done then .rejected .noOperation
  else .rejected .reservedPhase

/-- Format `F`: the label and the operand values (R73, R78 b). -/
def decodeFunction (fsel : BitVec 3) (operands : List Word) : Decoded :=
  if fsel = 0#3 then
    match operands with
    | [a, b] => .instr (.mum a b)
    | _ => .rejected .operandCount
  else if fsel = 1#3 then
    match operands with
    | [a, b] => .instr (.mix a b)
    | _ => .rejected .operandCount
  else if fsel = 2#3 then
    match operands with
    | [len] => .instr (.read3 len)
    | _ => .rejected .operandCount
  else if fsel = 3#3 then
    match operands with
    | [offset] => .instr (.read4 offset)
    | _ => .rejected .operandCount
  else if fsel = 4#3 then
    match operands with
    | [offset] => .instr (.read8 offset)
    | _ => .rejected .operandCount
  else .rejected .reservedFunction

/-- Format `C`: total on the 256 words, as match and mask (R75, R78 c). Bit 4 is `VAR`. -/
def decodeCommand (w : BitVec 8) : Decoded :=
  if w &&& 0xEF#8 = 0x00#8 then .instr (.nop (w.extractLsb' 4 1))
  else if w &&& 0xEF#8 = 0x01#8 then .instr (.start (w.extractLsb' 4 1))
  else .rejected .reservedCommand

/-- The decoder, total on every code of the three formats (R71). -/
def decode : Code → Decoded
  | .phase c => decodePhase c
  | .fn f xs => decodeFunction f xs
  | .command w => decodeCommand w

/-- The encoder, from the same tables (R72, R73, R75). -/
def encode : Instr → Code
  | .mum a b => .fn 0#3 [a, b]
  | .mix a b => .fn 1#3 [a, b]
  | .read3 len => .fn 2#3 [len]
  | .read4 offset => .fn 3#3 [offset]
  | .read8 offset => .fn 4#3 [offset]
  | .seedmix => .phase 0x1#4
  | .dispatch => .phase 0x2#4
  | .ld0 => .phase 0x3#4
  | .ld3 => .phase 0x4#4
  | .ld4 => .phase 0x5#4
  | .longent => .phase 0x6#4
  | .blk48 => .phase 0x7#4
  | .fold3 => .phase 0x8#4
  | .blk16 => .phase 0x9#4
  | .tail => .phase 0xA#4
  | .final => .phase 0xB#4
  | .nop v => .command (0#3 ++ v ++ 0x0#4)
  | .start v => .command (0#3 ++ v ++ 0x1#4)

/-- The operand words of a primitive, all zero: as many as R73 gives the label. -/
def zeroOperands (fsel : BitVec 3) : List Word :=
  if fsel.toNat ≤ 1 then [0, 0] else [0]

/-- The code a table word stands for. The three formats live in three places and their widths tell them apart: 3 bits
an `FSEL` label, 4 bits a `PHASE` code, 8 bits a `CMD` word (R71). In whole bytes every row has 8 bits, and the
formats' numbers overlap: a byte is then read as a `CMD` word where it is a legal one, else as the `PHASE` code it holds
where its upper half is zero (log 12). -/
def tableCode (nbits w : Nat) : Option Code :=
  if nbits = 3 then
    if w < 8 then some (.fn (BitVec.ofNat 3 w) (zeroOperands (BitVec.ofNat 3 w))) else none
  else if nbits = 4 then
    if w < 16 then some (.phase (BitVec.ofNat 4 w)) else none
  else if nbits = 8 then
    if (Code.command (BitVec.ofNat 8 w)).wf && decide (w < 256) then some (.command (BitVec.ofNat 8 w))
    else if w < 16 then some (.phase (BitVec.ofNat 4 w))
    else if w < 256 then some (.command (BitVec.ofNat 8 w))
    else none
  else none

/-- The instruction the decoder reads from a word of spec/opcode_table.json, in the host's numbering. -/
def decodeTableWord (nbits w : Nat) : Option Instr :=
  match tableCode nbits w with
  | none => none
  | some c =>
    match decode c with
    | .instr i => some i
    | .rejected _ => none

end Sys2Proof
end

