-- ==== Sys2Proof/Machine/State.lean ====
section
/-!
DEFINITION. The state of WYH-CORE as plain data (spec/10_state.md R20 to R42, spec/20_memory.md R50), the host's
pending turns (spec/45_call_sequence.md R165, R170), the reasons a step stops, and the state after reset (R40).
-/

namespace Sys2Proof.Machine

/-- The registers that hold a 64-bit value or no value (R20, R29, R34, R35), by name. -/
inductive Reg where
  | s0 | s1 | s2 | a | b | n | i | p | result | seedIn | lenIn
  deriving DecidableEq, Repr

/-- The five host-visible registers, in the order of their numbers 0..4 (R30). -/
inductive HostReg where
  | cmd | status | seedIn | lenIn | result
  deriving DecidableEq, Repr

/-- The host's actions (R170; R31 and R32 for the accesses that have no effect; `WAIT DONE` of R79). -/
inductive HostAction where
  /-- `WR SEED_IN, v` -/
  | wrSeed (v : Word)
  /-- `WR LEN_IN, v` -/
  | wrLen (v : Word)
  /-- `WRKEY o, bytes` -/
  | wrKey (o : Word) (bytes : List Byte)
  /-- `WR CMD, w` -/
  | wrCmd (w : BitVec 8)
  /-- a write to the read-only `STATUS`: no effect (R32) -/
  | wrStatus (w : BitVec 8)
  /-- a write to the read-only `RESULT`: "not host-writable" (R29) -/
  | wrResult (v : Word)
  /-- `RD <reg>` -/
  | rd (r : HostReg)
  /-- `WAIT DONE`: repeat `RD STATUS` until bit 1 is 1 -/
  | waitDone
  /-- reset, the asynchronous event from outside (R200) -/
  | reset
  deriving DecidableEq, Repr

/-- Whose turn it is (log 4): one host action, or a step left to the sequencer. A list of turns is one interleaving of
the host's program with the sequencer (R165). -/
inductive Turn where
  | host (act : HostAction)
  | sequencer
  deriving DecidableEq, Repr

/-- One value a host read returned (log 10). `STATUS` is zero-extended. -/
structure HostRead where
  reg : HostReg
  value : Word
  deriving DecidableEq, Repr

/-- The key space as a list of written bytes. An offset that is not listed holds no value (R40, R50). -/
abbrev Memory := List Host.Cell

/-- Why the machine stops with a fault. Each is the spec's own treatment `fault` or `stuck` (spec/93), and safe: the
model stops where the spec gives no behaviour. -/
inductive Fault where
  /-- An operation reads a register that holds no value (R14, 93 U11); raised by any phase operation or reader. Safe. -/
  | noValue (r : Reg)
  /-- A reader reads a key byte that holds no value (R14, R55, 93 U11). Safe. -/
  | keyNoValue (offset : Nat)
  /-- `MemRead(offset, width)` with `offset + width > N` (R56, 92 D19, 93 U4). Safe. -/
  | keyOutOfBounds (offset width len : Nat)
  /-- `READ3` outside its precondition `1 ≤ len ≤ 3` (R100). Safe. -/
  | read3Length (len : Nat)
  /-- `LD4` at a length for which `V.WIN` has no row (R8: "a function from n ∈ 4..16"). Safe. -/
  | windowUndefined (len : Nat)
  /-- The sequencer's turn with a reserved `PHASE` code: stuck (R78 a, R164, 93 U17). Safe. -/
  | reservedPhase (code : BitVec 4)
  /-- `WRKEY` names an offset that is no unsigned 64-bit integer (R50). Safe. -/
  | keyOffsetOutsideSpace (offset : Nat)
  deriving DecidableEq, Repr

/-- Why the machine refuses a step. -/
inductive Refusal where
  /-- Raised by an arm of exec that has no meaning yet; no arm is so. Safe. -/
  | notModelled (mnemonic : String)
  /-- `WRKEY` of a byte below `N` while `BUSY`: "the model gives it no move" (R170, R55, R207, 93 U12 `refuse`). Safe
  for claims about the block, as the spec gives such a run no meaning. -/
  | keyWriteDuringCall (offset : Nat)
  deriving DecidableEq, Repr

/-- The state. `none` in a register is `⊥`, "holds no value" (R14), a state the spec itself gives and tests. -/
structure State where
  /-- `PHASE` (R26) -/
  phase : BitVec 4
  /-- `VAR` (R27) -/
  var : BitVec 1
  /-- `PERR` (R28) -/
  perr : Bool
  /-- `S0` (R21) -/
  s0 : Option Word
  /-- `S1` (R22) -/
  s1 : Option Word
  /-- `S2` (R22) -/
  s2 : Option Word
  /-- `A` (R23) -/
  a : Option Word
  /-- `B` (R23) -/
  b : Option Word
  /-- `N` (R24) -/
  n : Option Word
  /-- `I` (R25) -/
  i : Option Word
  /-- `P` (R25) -/
  p : Option Word
  /-- `RESULT` (R29) -/
  result : Option Word
  /-- `SEED_IN` (R34) -/
  seedIn : Option Word
  /-- `LEN_IN` (R35) -/
  lenIn : Option Word
  /-- `KEY` (R50) -/
  key : Memory
  /-- the model's own: the turns to come (log 4) -/
  turns : List Turn
  /-- the model's own: what host reads have returned, newest first (log 10) -/
  reads : List HostRead
  /-- the model's own: how many unspecified values have been handed out (log 3) -/
  draws : Nat
  /-- the model's own: the output ports of the primitive last applied by itself (log 11) -/
  outputs : List Word
  deriving DecidableEq, Repr

/-- The state after reset (R40, R200): `PHASE = IDLE`, `PERR = 0`, `VAR = 0`, every data register and every key byte
without a value. The model's own fields are empty (log 25). -/
def State.reset : State where
  phase := Phase.idle
  var := 0#1
  perr := false
  s0 := none
  s1 := none
  s2 := none
  a := none
  b := none
  n := none
  i := none
  p := none
  result := none
  seedIn := none
  lenIn := none
  key := []
  turns := []
  reads := []
  draws := 0
  outputs := []

end Sys2Proof.Machine
end

