-- ==== Sys2Proof/Machine/Ops.lean ====
section
/-!
DEFINITION. The named operations over the key space and the registers, which every meaning is written with.
There is no exception to take and no return from one (spec/60_exceptions.md R180, R186): the one shared operation of
that place is `State.rejectCommand`, which records a rejected command in `PERR` and changes nothing else (R181).
-/

namespace Sys2Proof.Machine

/-- What a meaning answers. -/
abbrev Result := Host.Outcome State Fault Refusal

/-! ## The key space -/

/-- The byte at an offset; none where it holds no value (R14, R50). -/
def Memory.read : Memory → Nat → Option Byte
  | [], _ => none
  | (a, v) :: m, o => if o = a then some v else if o < a then none else Memory.read m o

/-- `KEY[o] <- v` by the host (R170), in the canonical form. -/
def Memory.write : Memory → Nat → Byte → Memory
  | [], o, v => [(o, v)]
  | (a, w) :: m, o, v =>
    if o < a then (o, v) :: (a, w) :: m
    else if o = a then (o, v) :: m
    else (a, w) :: Memory.write m o v

/-- `KEY[o+i] <- bytes[i]` (R170). -/
def Memory.writeBytes : Memory → Nat → List Byte → Memory
  | m, _, [] => m
  | m, o, v :: vs => Memory.writeBytes (Memory.write m o v) (o + 1) vs

/-- The canonical form from a lower bound on: strictly rising, every offset an unsigned 64-bit integer (R50). An
unlisted offset holds no value, so no entry can equal what it reads as. -/
def Memory.wfFrom : Nat → Memory → Bool
  | _, [] => true
  | low, (a, _) :: m => decide (low ≤ a ∧ a < 2 ^ 64) && Memory.wfFrom (a + 1) m

/-- The canonical form of the key space. -/
def Memory.wf (m : Memory) : Bool := Memory.wfFrom 0 m

/-- The key a call reads: its length and its bytes (R50: offsets `0 ≤ o < N`). -/
structure KeyView where
  /-- `N`, in bytes -/
  len : Nat
  /-- `KEY[o]`, none where it holds no value -/
  byte : Nat → Option Byte

/-- `count` consecutive bytes from offset `o`; a byte without a value is a model fault (R14). -/
def KeyView.bytes (k : KeyView) : Nat → Nat → Except Fault (List Byte)
  | _, 0 => .ok []
  | o, count + 1 =>
    match k.byte o with
    | none => .error (.keyNoValue o)
    | some v =>
      match k.bytes (o + 1) count with
      | .error e => .error e
      | .ok vs => .ok (v :: vs)

/-- `MemRead(o, k)`: defined only when `o + k ≤ N`, computed without wrap-around (R13, R56). -/
def memRead (k : KeyView) (o count : Nat) : Except Fault (List Byte) :=
  if o + count ≤ k.len then k.bytes o count else .error (.keyOutOfBounds o count k.len)

/-- The key of the call in progress, whose length `N` holds. -/
def State.keyView (s : State) (n : Word) : KeyView :=
  { len := n.toNat, byte := s.key.read }

/-! ## The registers -/

/-- A register by name (R20). -/
def State.reg (s : State) : Reg → Option Word
  | .s0 => s.s0
  | .s1 => s.s1
  | .s2 => s.s2
  | .a => s.a
  | .b => s.b
  | .n => s.n
  | .i => s.i
  | .p => s.p
  | .result => s.result
  | .seedIn => s.seedIn
  | .lenIn => s.lenIn

/-- Read a register and go on with its value; a register that holds no value is a model fault, never a zero (R14, 92 D23,
93 U11 `fault`). -/
def State.withReg (s : State) (r : Reg) (k : Word → Result) : Result :=
  match s.reg r with
  | some v => k v
  | none => .fault (.noValue r)

/-- Go on with what a read of the key gave, or stop with its fault. -/
def withRead {α : Type} (x : Except Fault α) (k : α → Result) : Result :=
  match x with
  | .ok v => k v
  | .error e => .fault e

/-! ## Commands, host reads and reset -/

/-- A rejected write to `CMD`: `PERR <- 1` and nothing else changes (R112, R181, R186). -/
def State.rejectCommand (s : State) : State := { s with perr := true }

/-- An accepted `START` (R112, R41): `VAR`, `S0`, `N` are latched, the other registers of a call hold no value, and
`PHASE` becomes `SEEDMIX`. -/
def State.acceptStart (s : State) (var : BitVec 1) (seed len : Word) : State :=
  { s with
    var := var, s0 := some seed, n := some len
    s1 := none, s2 := none, a := none, b := none, i := none, p := none, result := none
    phase := Phase.seedmix }

/-- A host read returns a value (log 10). -/
def State.logRead (s : State) (r : HostReg) (v : Word) : State :=
  { s with reads := { reg := r, value := v } :: s.reads }

/-- A host read of a register that may hold no value: its value, else a free value, fresh at each read (R33, log 3).
No side effect on the block. -/
def State.readOrFree (s : State) (r : HostReg) (v : Option Word) : State :=
  match v with
  | some w => s.logRead r w
  | none => { s.logRead r (Config.freeRead s.draws) with draws := s.draws + 1 }

/-- Reset in a running model (R200): the block and the key space come to the state after reset. What the model keeps
for the outside (the turns to come, what has been read, the counters) is not the block's and stays (log 18). -/
def State.resetBlock (s : State) : State :=
  { State.reset with turns := s.turns, reads := s.reads, draws := s.draws, outputs := s.outputs }

end Sys2Proof.Machine
end

