-- ==== Sys2Proof/Machine/Variants.lean ====
section
/-!
DEFINITION. The two variant records this spec supplies (spec/00_scope.md R9) and their well-formedness (R10).
-/

namespace Sys2Proof.Machine

/-- The window table of R118, for the lengths 4..16 it is a function of: `d = (n >> 3) << 2` and
`(ah, al, bh, bl) = (0, d, n-4, n-4-d)`. -/
def window (n : Word) : Option Windows :=
  if 4 ≤ n.toNat ∧ n.toNat ≤ 16 then
    let d := (n >>> 3) <<< 2
    some { ah := 0, al := d, bh := n - 4, bl := n - 4 - d }
  else none

/-- `V_A` (R9). The values come from the spec's general knowledge (log 14). -/
def variantA : VariantRecord where
  k0 := 0x2d358dccaa6c78a5#64
  k1 := 0x8bb84b93962eacc9#64
  k2 := 0x4b33a62ed433d4a3#64
  k3 := 0x4d5a2da51de1aa47#64
  win := window
  incl48 := true
  pad := false

/-- `V_B` (R9). The values come from the spec's general knowledge (log 14). -/
def variantB : VariantRecord where
  k0 := 0xa0761d6478bd642f#64
  k1 := 0xe7037ed1a0b428db#64
  k2 := 0x8ebc6af09c88c6e3#64
  k3 := 0x589965cc75374cc3#64
  win := window
  incl48 := false
  pad := true

/-- The record `VAR` selects: 0 is `V_A`, 1 is `V_B` (R27, R76). -/
def variantOf (var : BitVec 1) : VariantRecord :=
  if var = 0#1 then variantA else variantB

/-- One row of R10's check: the four offsets `o` of `V.WIN(n)` have `o + 4 ≤ n`. -/
def windowFits (V : VariantRecord) (n : Nat) : Bool :=
  match V.win (BitVec.ofNat 64 n) with
  | none => false
  | some w =>
    decide (w.ah.toNat + 4 ≤ n) && decide (w.al.toNat + 4 ≤ n) &&
      decide (w.bh.toNat + 4 ≤ n) && decide (w.bl.toNat + 4 ≤ n)

/-- Well-formedness of a variant record (R10): every row 4..16 of the window table fits. -/
def variantWf (V : VariantRecord) : Bool :=
  (List.range 13).all fun j => windowFits V (j + 4)

end Sys2Proof.Machine
end

