-- ==== Sys2Proof/Machine/Operands.lean ====
section
/-!
DEFINITION. The operand forms of the operations: the variant's constants, the three byte readers
(spec/41_byte_readers.md R100 to R102), the length classes (spec/42 R114) and the loop condition (spec/43 R131).
-/

namespace Sys2Proof.Machine

/-- The variant record of the call in progress (R27). -/
def State.variant (s : State) : VariantRecord := variantOf s.var

/-! ## Byte readers -/

/-- Little-endian assembly: the byte at the lowest offset is the least significant (R54). -/
def littleEndian : List Byte → Word
  | [] => 0
  | v :: vs => v.setWidth 64 ||| (littleEndian vs <<< 8)

/-- `read4(o)` (R101). -/
def read4 (k : KeyView) (o : Nat) : Except Fault Word :=
  match memRead k o 4 with
  | .ok vs => .ok (littleEndian vs)
  | .error e => .error e

/-- `read8(o)` (R102). -/
def read8 (k : KeyView) (o : Nat) : Except Fault Word :=
  match memRead k o 8 with
  | .ok vs => .ok (littleEndian vs)
  | .error e => .error e

/-- `MemRead(o, 1)[0]`, zero-extended. -/
def read1 (k : KeyView) (o : Nat) : Except Fault Word :=
  match memRead k o 1 with
  | .ok vs => .ok (littleEndian vs)
  | .error e => .error e

/-- `read3(len)`: bytes `0`, `len >> 1` and `len - 1` at bits 23:16, 15:8 and 7:0 (R100), for `1 ≤ len ≤ 3`. -/
def read3 (k : KeyView) (len : Word) : Except Fault Word :=
  if 1 ≤ len.toNat ∧ len.toNat ≤ 3 then
    match read1 k 0 with
    | .error e => .error e
    | .ok b0 =>
      match read1 k (len >>> 1).toNat with
      | .error e => .error e
      | .ok b1 =>
        match read1 k (len - 1).toNat with
        | .error e => .error e
        | .ok b2 => .ok ((b0 <<< 16) ||| (b1 <<< 8) ||| b2)
  else .error (.read3Length len.toNat)

/-- `V.WIN(n)` (R118); a length with no row is a model fault. -/
def windowsAt (V : VariantRecord) (n : Word) : Except Fault Windows :=
  match V.win n with
  | some w => .ok w
  | none => .error (.windowUndefined n.toNat)

/-- A lane of the 4..16 class: `(high window << 32) OR low window` (R119). -/
def lane (k : KeyView) (high low : Word) : Except Fault Word :=
  match read4 k high.toNat with
  | .error e => .error e
  | .ok h =>
    match read4 k low.toNat with
    | .error e => .error e
    | .ok l => .ok ((h <<< 32) ||| l)

/-- One 16-byte sub-block at offset `o` folded into an accumulator:
`mix(read8(o) XOR secret, read8(o + 8) XOR acc)` (R133, R135). -/
def subBlock (k : KeyView) (o : Word) (secret acc : Word) : Except Fault Word :=
  match read8 k o.toNat with
  | .error e => .error e
  | .ok x =>
    match read8 k (o + 8).toNat with
    | .error e => .error e
    | .ok y => .ok (mix (x ^^^ secret) (y ^^^ acc))

/-! ## Functions of the seed and the length -/

/-- `derive_seed(V, s) = s XOR mix(s XOR K0, K1)` (R111). -/
def deriveSeed (V : VariantRecord) (s : Word) : Word :=
  s ^^^ mix (s ^^^ V.k0) V.k1

/-- The four length classes (R114). -/
inductive LengthClass where
  /-- `n = 0` -/
  | c0
  /-- `1 ≤ n < 4` -/
  | c3
  /-- `4 ≤ n ≤ 16` -/
  | c4
  /-- `n > 16` -/
  | clong
  deriving DecidableEq, Repr

/-- `class_of(n)` (R114). -/
def classOf (n : Word) : LengthClass :=
  if n.toNat = 0 then .c0
  else if n.toNat < 4 then .c3
  else if n.toNat ≤ 16 then .c4
  else .clong

/-- Where `DISPATCH` goes (R115). -/
def classPhase : LengthClass → BitVec 4
  | .c0 => Phase.ld0
  | .c3 => Phase.ld3
  | .c4 => Phase.ld4
  | .clong => Phase.longent

/-- `cond48(V, i)`: `i ≥ 48` where the record compares inclusively, else `i > 48` (R131). -/
def cond48 (V : VariantRecord) (i : Nat) : Bool :=
  if V.incl48 then decide (48 ≤ i) else decide (48 < i)

/-- `finalize(V, a, b, n)` (R151): `mix(lo XOR K0 XOR n, hi XOR K1)` with `(lo, hi) = mum(a, b)`. -/
def finalize (V : VariantRecord) (a b n : Word) : Word :=
  mix ((mum a b).1 ^^^ V.k0 ^^^ n) ((mum a b).2 ^^^ V.k1)

end Sys2Proof.Machine
end

