-- ==== Sys2Proof/Machine/Commands.lean ====
section
/-!
DEFINITION. The meanings of the two host commands (spec/42_seed_and_dispatch.md R112). A reserved word is no
instruction: Machine/HostPort.lean rejects it.
-/

namespace Sys2Proof.Machine

/-- `NOP` (words 0x00 and 0x10): no change; bit 4 is ignored (R31, R112). -/
def execNop (_v : BitVec 1) (s : State) : Result := .next s

/-- `START` (R112): rejected with `PERR` while a call runs, or while `SEED_IN` or `LEN_IN` has not been written since
reset; otherwise accepted. -/
def execStart (var : BitVec 1) (s : State) : Result :=
  if s.phase = Phase.idle ∨ s.phase = Phase.done then
    match s.seedIn with
    | none => .next s.rejectCommand
    | some seed =>
      match s.lenIn with
      | none => .next s.rejectCommand
      | some len => .next (s.acceptStart var seed len)
  else .next s.rejectCommand

end Sys2Proof.Machine
end

