-- ==== Sys2Proof/Machine/Finalization.lean ====
section
/-!
DEFINITION. The meaning of `FINAL` (spec/44_finalization_format.md R150).
-/

namespace Sys2Proof.Machine

/-- `FINAL` (R150): `A`, `B` take the halves of their product, `RESULT` the last mix. -/
def execFinal (s : State) : Result :=
  s.withReg .a fun a => s.withReg .b fun b => s.withReg .n fun n =>
    .next { s with
      a := some (mum a b).1, b := some (mum a b).2
      result := some (finalize s.variant a b n)
      phase := Phase.done }

end Sys2Proof.Machine
end

