-- ==== Sys2Proof/Machine/LongInput.lean ====
section
/-!
DEFINITION. The meanings of `LONGENT`, `BLK48`, `FOLD3`, `BLK16`, `TAIL` (spec/43_long_input.md R132 to R136). Offsets
and counters are 64-bit and modulo 2^64 (R12); within a call none wraps (R141).
-/

namespace Sys2Proof.Machine

/-- `LONGENT` (R132): `S0` is read, and `S1` and `S2` are written, only when the 48-byte stage is entered (log 16). -/
def execLongent (s : State) : Result :=
  s.withReg .n fun n =>
    if cond48 s.variant n.toNat then
      s.withReg .s0 fun s0 =>
        .next { s with i := some n, p := some 0, s1 := some s0, s2 := some s0, phase := Phase.blk48 }
    else
      .next { s with i := some n, p := some 0, phase := Phase.blk16 }

/-- `BLK48` (R133): three independent lane updates, all from the values before the step. -/
def execBlk48 (s : State) : Result :=
  s.withReg .s0 fun s0 => s.withReg .s1 fun s1 => s.withReg .s2 fun s2 =>
  s.withReg .i fun i => s.withReg .p fun p => s.withReg .n fun n =>
    withRead (subBlock (s.keyView n) p s.variant.k1 s0) fun t0 =>
    withRead (subBlock (s.keyView n) (p + 16) s.variant.k2 s1) fun t1 =>
    withRead (subBlock (s.keyView n) (p + 32) s.variant.k3 s2) fun t2 =>
      .next { s with
        s0 := some t0, s1 := some t1, s2 := some t2, p := some (p + 48), i := some (i - 48)
        phase := if cond48 s.variant (i - 48).toNat then Phase.blk48 else Phase.fold3 }

/-- `FOLD3` (R134). -/
def execFold3 (s : State) : Result :=
  s.withReg .s0 fun s0 => s.withReg .s1 fun s1 => s.withReg .s2 fun s2 => s.withReg .i fun i =>
    .next { s with
      s0 := some (s0 ^^^ s1 ^^^ s2)
      phase := if 16 < i.toNat then Phase.blk16 else Phase.tail }

/-- `BLK16` (R135). -/
def execBlk16 (s : State) : Result :=
  s.withReg .s0 fun s0 => s.withReg .i fun i => s.withReg .p fun p => s.withReg .n fun n =>
    withRead (subBlock (s.keyView n) p s.variant.k1 s0) fun t0 =>
      .next { s with
        s0 := some t0, p := some (p + 16), i := some (i - 16)
        phase := if 16 < (i - 16).toNat then Phase.blk16 else Phase.tail }

/-- `TAIL` (R136): the last 16 bytes of the key, from `N` and not from `P` and `I`. -/
def execTail (s : State) : Result :=
  s.withReg .s0 fun s0 => s.withReg .n fun n =>
    withRead (read8 (s.keyView n) (n - 16).toNat) fun x =>
    withRead (read8 (s.keyView n) (n - 8).toNat) fun y =>
      .next { s with a := some (x ^^^ s.variant.k1), b := some (y ^^^ s0), phase := Phase.final }

end Sys2Proof.Machine
end

