-- ==== Sys2Proof/Machine/Primitives.lean ====
section
/-!
DEFINITION. The meanings of the five datapath primitives (spec/40_mix_primitives.md R90, R92, spec/41_byte_readers.md
R100 to R102). A primitive is a pure combinational function: applied by itself it writes no register and only drives its
output ports, which the model keeps in `outputs` (log 11).
-/

namespace Sys2Proof.Machine

/-- The output ports of a primitive show these values; no architectural state changes (R90: "No side effects"). -/
def State.drive (s : State) (values : List Word) : State := { s with outputs := values }

/-- `MUM`: outputs `lo`, `hi` (R90). -/
def execMum (a b : Word) (s : State) : Result :=
  .next (s.drive [(mum a b).1, (mum a b).2])

/-- `MIX`: one output (R92). -/
def execMix (a b : Word) (s : State) : Result :=
  .next (s.drive [mix a b])

/-- `READ3 len` on the key of length `N` (R100). -/
def execRead3 (len : Word) (s : State) : Result :=
  s.withReg .n fun n => withRead (read3 (s.keyView n) len) fun v => .next (s.drive [v])

/-- `READ4 offset` (R101). -/
def execRead4 (offset : Word) (s : State) : Result :=
  s.withReg .n fun n => withRead (read4 (s.keyView n) offset.toNat) fun v => .next (s.drive [v])

/-- `READ8 offset` (R102). -/
def execRead8 (offset : Word) (s : State) : Result :=
  s.withReg .n fun n => withRead (read8 (s.keyView n) offset.toNat) fun v => .next (s.drive [v])

end Sys2Proof.Machine
end

