-- ==== Sys2Proof/Machine/SeedDispatch.lean ====
section
/-!
DEFINITION. The meanings of `SEEDMIX`, `DISPATCH`, `LD0`, `LD3`, `LD4` (spec/42_seed_and_dispatch.md R113 to R119).
-/

namespace Sys2Proof.Machine

/-- `SEEDMIX` (R113). -/
def execSeedmix (s : State) : Result :=
  s.withReg .s0 fun s0 =>
    .next { s with s0 := some (deriveSeed s.variant s0), phase := Phase.dispatch }

/-- `DISPATCH` (R115). -/
def execDispatch (s : State) : Result :=
  s.withReg .n fun n => .next { s with phase := classPhase (classOf n) }

/-- `LD0` (R116). -/
def execLd0 (s : State) : Result :=
  s.withReg .s0 fun s0 =>
    .next { s with a := some s.variant.k1, b := some s0, phase := Phase.final }

/-- `LD3` (R117). -/
def execLd3 (s : State) : Result :=
  s.withReg .s0 fun s0 => s.withReg .n fun n =>
    withRead (read3 (s.keyView n) n) fun x =>
      .next { s with a := some (x ^^^ s.variant.k1), b := some s0, phase := Phase.final }

/-- `LD4` (R119): two lanes of two windows each, XORed with `K1` and `S0`. -/
def execLd4 (s : State) : Result :=
  s.withReg .s0 fun s0 => s.withReg .n fun n =>
    withRead (windowsAt s.variant n) fun w =>
    withRead (lane (s.keyView n) w.ah w.al) fun x =>
    withRead (lane (s.keyView n) w.bh w.bl) fun y =>
      .next { s with a := some (x ^^^ s.variant.k1), b := some (y ^^^ s0), phase := Phase.final }

end Sys2Proof.Machine
end

