-- ==== Sys2Proof/Machine/Dispatch.lean ====
section
/-!
DEFINITION. One arm per operation of spec/opcode_table.json.
-/

namespace Sys2Proof.Machine

def exec (i : Instr) (s : State) : Host.Outcome State Fault Refusal :=
  match i with
  | .mum a b => Sys2Proof.Machine.execMum a b s
  | .mix a b => Sys2Proof.Machine.execMix a b s
  | .read3 len => Sys2Proof.Machine.execRead3 len s
  | .read4 offset => Sys2Proof.Machine.execRead4 offset s
  | .read8 offset => Sys2Proof.Machine.execRead8 offset s
  | .seedmix => Sys2Proof.Machine.execSeedmix s
  | .dispatch => Sys2Proof.Machine.execDispatch s
  | .ld0 => Sys2Proof.Machine.execLd0 s
  | .ld3 => Sys2Proof.Machine.execLd3 s
  | .ld4 => Sys2Proof.Machine.execLd4 s
  | .longent => Sys2Proof.Machine.execLongent s
  | .blk48 => Sys2Proof.Machine.execBlk48 s
  | .fold3 => Sys2Proof.Machine.execFold3 s
  | .blk16 => Sys2Proof.Machine.execBlk16 s
  | .tail => Sys2Proof.Machine.execTail s
  | .final => Sys2Proof.Machine.execFinal s
  | .nop v => Sys2Proof.Machine.execNop v s
  | .start var => Sys2Proof.Machine.execStart var s

end Sys2Proof.Machine
end

