-- ==== Sys2Proof/Machine/Flags.lean ====
section
/-!
DEFINITION. The flags. No operation writes a condition code, carry or overflow (spec/10_state.md R36); the single-bit
state is `VAR` and `PERR`, and `BUSY` and `DONE` are functions of `PHASE` (R32).
-/

namespace Sys2Proof.Machine

/-- `BUSY`: `PHASE` is in 0x1..0xB (R32). -/
def State.busy (s : State) : Bool := decide (0x1#4 ≤ s.phase ∧ s.phase ≤ 0xB#4)

/-- `DONE`: `PHASE = 0xC` (R32). -/
def State.done (s : State) : Bool := decide (s.phase = Phase.done)

/-- `STATUS`, composed at each read (R32): bit 0 `BUSY`, bit 1 `DONE`, bit 2 `PERR`, bit 3 `VAR`, bits 7:4 zero. -/
def State.status (s : State) : BitVec 8 :=
  0#4 ++ s.var ++ BitVec.ofBool s.perr ++ BitVec.ofBool s.done ++ BitVec.ofBool s.busy

end Sys2Proof.Machine
end

