-- ==== Sys2Proof/Machine/HostPort.lean ====
section
/-!
DEFINITION. The host's actions (spec/45_call_sequence.md R170) and the sequencer's turn (R165 a). An action is performed
on the state from which its turn has been taken.
-/

namespace Sys2Proof.Machine

/-- The host writes the word `w` to `CMD` (R112): decoded at once and not retained (R31); a reserved word is rejected
with `PERR` (R78 c, R181). -/
def writeCommand (w : BitVec 8) (s : State) : Result :=
  match decode (.command w) with
  | .instr i => exec i s
  | .rejected _ => .next s.rejectCommand

/-- The host writes key bytes (R170). No offset past the 64-bit space exists (R50), and the model gives the host no move
that writes a byte below `N` while `BUSY` (R55, R207; log 7). -/
def writeKey (o : Word) (bytes : List Byte) (s : State) : Result :=
  if 2 ^ 64 < o.toNat + bytes.length then .fault (.keyOffsetOutsideSpace (2 ^ 64))
  else if s.busy && !bytes.isEmpty && (s.n.any fun n => decide (o.toNat < n.toNat)) then
    .refused (.keyWriteDuringCall o.toNat)
  else .next { s with key := s.key.writeBytes o.toNat bytes }

/-- The host reads a register (R170, R30): `STATUS` composed, the 64-bit registers their value or a free value (R33),
the write-only `CMD` a free value (R31). No read has a side effect on the block. -/
def readRegister (r : HostReg) (s : State) : State :=
  match r with
  | .cmd => s.readOrFree .cmd none
  | .status => s.logRead .status (s.status.setWidth 64)
  | .seedIn => s.readOrFree .seedIn s.seedIn
  | .lenIn => s.readOrFree .lenIn s.lenIn
  | .result => s.readOrFree .result s.result

/-- `WAIT DONE` (R79): read `STATUS`; while bit 1 is 0, the sequencer gets its step and the host reads again (log 17). -/
def pollDone (s : State) : State :=
  let t := readRegister .status s
  if s.done then t else { t with turns := .sequencer :: .host .waitDone :: s.turns }

/-- One action of the host (R170). -/
def hostStep (act : HostAction) (s : State) : Result :=
  match act with
  | .wrSeed v => .next { s with seedIn := some v }
  | .wrLen v => .next { s with lenIn := some v }
  | .wrKey o bytes => writeKey o bytes s
  | .wrCmd w => writeCommand w s
  | .wrStatus _ => .next s
  | .wrResult _ => .next s
  | .rd r => .next (readRegister r s)
  | .waitDone => .next (pollDone s)
  | .reset => .next s.resetBlock

/-- The sequencer's turn (R160, R165 a): the phase operation `PHASE` names. In `IDLE` and `DONE` it has no step and the
state persists (R164, log 5); a reserved code is stuck (R78 a). -/
def sequencerStep (s : State) : Result :=
  match decode (.phase s.phase) with
  | .instr i => exec i s
  | .rejected .noOperation => .next s
  | .rejected _ => .fault (.reservedPhase s.phase)

/-- Take the next turn: the head of `turns`, or the sequencer's when none is listed (log 4). -/
def takeTurn (s : State) : Result :=
  match s.turns with
  | [] => sequencerStep s
  | .sequencer :: rest => sequencerStep { s with turns := rest }
  | .host act :: rest => hostStep act { s with turns := rest }

end Sys2Proof.Machine
end

