-- ==== Sys2Proof/Machine/Launch.lean ====
section
/-!
DEFINITION. Where a code is placed so that the next step runs it (log 13). A `CMD` word is a host action; a phase
operation is reached inside a call, so the registers and key bytes its rule reads are given a value where they hold none.
-/

namespace Sys2Proof.Machine

/-- A register's value, or the given one where it holds none. -/
def fillReg (r : Option Word) (v : Word) : Option Word :=
  match r with
  | some w => some w
  | none => some v

/-- Key bytes from offset `o` on: zero where none is held. -/
def Memory.fillZero : Memory → Nat → Nat → Memory
  | m, _, 0 => m
  | m, o, count + 1 =>
    match m.read o with
    | some _ => Memory.fillZero m (o + 1) count
    | none => Memory.fillZero (m.write o 0) (o + 1) count

/-- The length, the bytes remaining and the position of the smallest call in which a phase operation runs under both
variants (R163, R142). -/
def launchCounters (code : BitVec 4) : Nat × Nat × Nat :=
  if code = Phase.ld3 then (1, 0, 0)
  else if code = Phase.ld4 then (4, 0, 0)
  else if code = Phase.longent then (17, 0, 0)
  else if code = Phase.blk48 then (49, 49, 0)
  else if code = Phase.fold3 then (49, 1, 48)
  else if code = Phase.blk16 then (17, 17, 0)
  else if code = Phase.tail then (17, 1, 16)
  else (0, 0, 0)

/-- A call at the phase `code`: the registers that are read there (R42) hold a value. -/
def State.launchAt (s : State) (code : BitVec 4) : State :=
  let (len, left, pos) := launchCounters code
  let t : State := { s with
    phase := code
    s0 := fillReg s.s0 0
    n := fillReg s.n (BitVec.ofNat 64 len)
    key := s.key.fillZero 0 len }
  if code = Phase.blk48 ∨ code = Phase.fold3 then
    { t with i := fillReg s.i (BitVec.ofNat 64 left), p := fillReg s.p (BitVec.ofNat 64 pos)
             s1 := fillReg s.s1 0, s2 := fillReg s.s2 0 }
  else if code = Phase.blk16 ∨ code = Phase.tail then
    { t with i := fillReg s.i (BitVec.ofNat 64 left), p := fillReg s.p (BitVec.ofNat 64 pos) }
  else if code = Phase.final then
    { t with a := fillReg s.a 0, b := fillReg s.b 0 }
  else t

/-- Place a code where the next step runs it: a phase operation in `PHASE` with the sequencer's turn next, a command
word as the host's next action. A primitive's label is held in no state and fetched by nothing (R71), so it is placed
nowhere (log 11). -/
def State.place (s : State) (c : Code) : State :=
  match c with
  | .phase code =>
    match decode (.phase code) with
    | .instr _ => { s.launchAt code with turns := .sequencer :: s.turns }
    | .rejected _ => { s with phase := code, turns := .sequencer :: s.turns }
  | .fn _ _ => s
  | .command w => { s with turns := .host (.wrCmd w) :: s.turns }

end Sys2Proof.Machine
end

