-- ==== Sys2Proof/Machine/Reference.lean ====
section
/-!
DEFINITION. What a call computes, as a function (spec/45_call_sequence.md R161), with the long path
(spec/43_long_input.md R137), the iteration and step counts (R142, R166). It reads the key through the machine's own
readers, so a read outside the key would show as a fault and not as a value.
-/

namespace Sys2Proof.Machine

/-- A key given as a list of bytes: `KEY[0..n-1] = key` (R161). -/
def keyOfList (key : List Byte) : KeyView :=
  { len := key.length, byte := fun o => key[o]? }

/-- The variables of R137's loops. -/
structure Lanes where
  s0 : Word
  s1 : Word
  s2 : Word
  /-- bytes remaining -/
  i : Nat
  /-- offset of the next byte -/
  p : Nat
  deriving DecidableEq, Repr

/-- One 16-byte sub-block at a natural-number offset (R133, R135; R141 admits natural numbers). -/
def mixAt (k : KeyView) (o : Nat) (secret acc : Word) : Except Fault Word :=
  match read8 k o with
  | .error e => .error e
  | .ok x =>
    match read8 k (o + 8) with
    | .error e => .error e
    | .ok y => .ok (mix (x ^^^ secret) (y ^^^ acc))

/-- The 48-byte stage of R137: repeat while `cond48`, at most `fuel` times (each iteration takes 48 bytes, so the key's
length is fuel enough). -/
def stage48 (V : VariantRecord) (k : KeyView) : Nat → Lanes → Except Fault Lanes
  | 0, l => .ok l
  | fuel + 1, l =>
    if cond48 V l.i then
      match mixAt k l.p V.k1 l.s0 with
      | .error e => .error e
      | .ok t0 =>
        match mixAt k (l.p + 16) V.k2 l.s1 with
        | .error e => .error e
        | .ok t1 =>
          match mixAt k (l.p + 32) V.k3 l.s2 with
          | .error e => .error e
          | .ok t2 => stage48 V k fuel { s0 := t0, s1 := t1, s2 := t2, i := l.i - 48, p := l.p + 48 }
    else .ok l

/-- The 16-byte stage of R137: while more than 16 bytes remain, at most `fuel` times. -/
def stage16 (V : VariantRecord) (k : KeyView) : Nat → Word → Nat → Nat → Except Fault Word
  | 0, s0, _, _ => .ok s0
  | fuel + 1, s0, i, p =>
    if 16 < i then
      match mixAt k p V.k1 s0 with
      | .error e => .error e
      | .ok t0 => stage16 V k fuel t0 (i - 16) (p + 16)
    else .ok s0

/-- `long_path(V, s, key, n)` (R137): the pair `(A, B)`. -/
def longPath (V : VariantRecord) (s : Word) (k : KeyView) : Except Fault (Word × Word) :=
  match stage48 V k k.len { s0 := s, s1 := s, s2 := s, i := k.len, p := 0 } with
  | .error e => .error e
  | .ok l =>
    match stage16 V k k.len (if cond48 V k.len then l.s0 ^^^ l.s1 ^^^ l.s2 else l.s0) l.i l.p with
    | .error e => .error e
    | .ok t =>
      match read8 k (k.len - 16) with
      | .error e => .error e
      | .ok x =>
        match read8 k (k.len - 8) with
        | .error e => .error e
        | .ok y => .ok (x ^^^ V.k1, y ^^^ t)

/-- The pair `(a, b)` of the four classes (R161, R120), from the derived seed. -/
def classLanes (V : VariantRecord) (s : Word) (k : KeyView) : Except Fault (Word × Word) :=
  match classOf (BitVec.ofNat 64 k.len) with
  | .c0 => .ok (V.k1, s)
  | .c3 =>
    match read3 k (BitVec.ofNat 64 k.len) with
    | .error e => .error e
    | .ok x => .ok (x ^^^ V.k1, s)
  | .c4 =>
    match windowsAt V (BitVec.ofNat 64 k.len) with
    | .error e => .error e
    | .ok w =>
      match lane k w.ah w.al with
      | .error e => .error e
      | .ok x =>
        match lane k w.bh w.bl with
        | .error e => .error e
        | .ok y => .ok (x ^^^ V.k1, y ^^^ s)
  | .clong => longPath V s k

/-- `wyhash_core(V, seed, key)` (R161). Its domain is keys shorter than 2^64 bytes (R7, 92 D14); what it computes from a
longer one has no meaning and no statement uses it (log 26). -/
def wyhashCore (V : VariantRecord) (seed : Word) (k : KeyView) : Except Fault Word :=
  match classLanes V (deriveSeed V seed) k with
  | .error e => .error e
  | .ok (a, b) => .ok (finalize V a b (BitVec.ofNat 64 k.len))

/-- `q`, the number of `BLK48` steps (R142, for `n ≥ 17`). -/
def blk48Steps (V : VariantRecord) (n : Nat) : Nat :=
  if V.incl48 then n / 48 else (n - 1) / 48

/-- `r = n - 48·q`, the bytes left after the 48-byte stage (R142). -/
def bytesLeft (V : VariantRecord) (n : Nat) : Nat := n - 48 * blk48Steps V n

/-- `m`, the number of `BLK16` steps: 0 for `r ≤ 16`, 1 for 17..32, 2 for 33..48 (R142). -/
def blk16Steps (V : VariantRecord) (n : Nat) : Nat := (bytesLeft V n - 1) / 16

/-- `steps(V, n)`, the sequencer steps from an accepted `START` to `DONE` (R166). -/
def callSteps (V : VariantRecord) (n : Nat) : Nat :=
  if n ≤ 16 then 4
  else 5 + blk48Steps V n + (if 0 < blk48Steps V n then 1 else 0) + blk16Steps V n

end Sys2Proof.Machine
end

