-- ==== Sys2Proof/Machine/HostSide.lean ====
section
/-!
DEFINITION. What the host computes outside the block: seed normalisation (spec/42_seed_and_dispatch.md R110), the
hexadecimal rendering (spec/44_finalization_format.md R153 to R155) and the pseudo-instructions of spec/30_encoding.md
R80. Neither is state or logic of the block (R5).
-/

namespace Sys2Proof.Machine

/-- `norm64(z) = z mod 2^64`, for any integer (R110). -/
def norm64 (z : Int) : Word := BitVec.ofInt 64 z

/-- The digits `0123456789abcdef` (R153). -/
def hexDigit (d : Nat) : Char :=
  if d < 10 then Char.ofNat (48 + d) else Char.ofNat (87 + d)

/-- The `count` low hexadecimal digits of a number, most significant first. -/
def hexDigits : Nat → Nat → List Char
  | 0, _ => []
  | count + 1, r => hexDigits count (r / 16) ++ [hexDigit (r % 16)]

/-- `hex16(r)`: exactly sixteen digits (R155). -/
def hex16 (r : Word) : List Char := hexDigits 16 r.toNat

/-- `hexmin(r)`: no leading zero; zero renders as "0" (R154). -/
def hexmin (r : Word) : List Char :=
  match (hex16 r).dropWhile (· == '0') with
  | [] => ['0']
  | ds => ds

/-- `fmt(V, r)` (R153). -/
def fmt (V : VariantRecord) (r : Word) : List Char :=
  if V.pad then hex16 r else hexmin r

/-- The value of one hexadecimal digit; none for any other character. -/
def digitValue (c : Char) : Option Nat :=
  if 48 ≤ c.toNat ∧ c.toNat ≤ 57 then some (c.toNat - 48)
  else if 97 ≤ c.toNat ∧ c.toNat ≤ 102 then some (c.toNat - 87)
  else none

/-- Parse a base-16 numeral onto what stands before it (R156); none at a character that is no digit. -/
def parseHexFrom : Nat → List Char → Option Nat
  | acc, [] => some acc
  | acc, c :: cs =>
    match digitValue c with
    | some d => parseHexFrom (acc * 16 + d) cs
    | none => none

/-- The number a base-16 numeral stands for (R156). -/
def parseHex (cs : List Char) : Option Nat := parseHexFrom 0 cs

/-- The command word of `START.A` (0x01) and `START.B` (0x11) (R75). -/
def startWord (var : BitVec 1) : BitVec 8 := 0#3 ++ var ++ 0x1#4

/-! ## The pseudo-instructions (spec/30_encoding.md R80) -/

/-- `HASH.A` and `HASH.B` as the host's turns; the sequencer gets its turns through `WAIT DONE` (log 17). A key of 2^64
bytes or more is not admitted (R7, 92 D14, 93 U5 `refuse`): it has no expansion, where its length modulo 2^64 would be
that of another key (log 26). -/
def hashTurns (var : BitVec 1) (seed : Int) (key : List Byte) : Option (List Turn) :=
  if key.length < 2 ^ 64 then
    some [.host (.wrSeed (norm64 seed)), .host (.wrLen (BitVec.ofNat 64 key.length)), .host (.wrKey 0 key),
      .host (.wrCmd (startWord var)), .host .waitDone, .host (.rd .result)]
  else none

/-- What the host read from `RESULT`, if that was its last read. -/
def State.resultRead (s : State) : Option Word :=
  match s.reads with
  | { reg := .result, value := r } :: _ => some r
  | _ => none

/-- `HASHHEX.A` and `HASHHEX.B` once the turns of `HASH` are taken: the host formats what it has read from `RESULT`. -/
def State.hashHexRead (s : State) (var : BitVec 1) : Option (List Char) :=
  s.resultRead.map (fmt (variantOf var))

/-- The value of `HASH.A` and `HASH.B`: `wyhash_core(V, norm64(seed), key)` (R80, R161); none for a key that is not
admitted (log 26). -/
def hashValue (var : BitVec 1) (seed : Int) (key : List Byte) : Option Word :=
  if key.length < 2 ^ 64 then
    match wyhashCore (variantOf var) (norm64 seed) (keyOfList key) with
    | .ok r => some r
    | .error _ => none
  else none

/-- The value of `HASHHEX.A` and `HASHHEX.B`, the source's `hash(seed, key)` for that variant:
`fmt(V, wyhash_core(V, norm64(seed), key))` (R80, R161). -/
def hashHex (var : BitVec 1) (seed : Int) (key : List Byte) : Option (List Char) :=
  (hashValue var seed key).map (fmt (variantOf var))

end Sys2Proof.Machine
end

