-- ==== Sys2Proof/Safety.lean ====
section
/-!
DEFINITION. What a safe run is, in the terms claims use: the shape of the states a run reaches
(spec/43_long_input.md R140, spec/70_reset_and_hazards.md R206), the host's duty about the key (spec/20_memory.md R55),
the launch premises and the end of a run (spec/45_call_sequence.md R169).
-/

namespace Sys2Proof.Machine

/-- The register holds a value, and the value passes the test. -/
def holds (r : Option Word) (test : Word → Bool) : Bool :=
  match r with
  | some v => test v
  | none => false

/-- Every byte `KEY[0..n-1]` holds a value (R55). -/
def State.KeyComplete (s : State) (n : Word) : Prop :=
  ∀ o : Nat, o < n.toNat → (s.key.read o).isSome = true

/-- `N`, `I` and `P` hold values with `P + I = N`, `P` a multiple of 16, and the three pass the test (R140). -/
def countersOk (s : State) (test : (n i p : Nat) → Bool) : Bool :=
  holds s.n fun n => holds s.i fun i => holds s.p fun p =>
    decide (p.toNat + i.toNat = n.toNat) && decide (p.toNat % 16 = 0) && test n.toNat i.toNat p.toNat

/-- The call consumes its key in whole 48-byte blocks: the comparison is inclusive and `N` is a multiple of 48 (R140). -/
def wholeBlocks (V : VariantRecord) (n : Nat) : Bool := V.incl48 && decide (n % 48 = 0)

/-- The bytes remaining from `TAIL` on: 1 to 16, but none where whole blocks consume the key (R140). -/
def leftAtTail (V : VariantRecord) (n i : Nat) : Bool :=
  if wholeBlocks V n then decide (i = 0) else decide (1 ≤ i ∧ i ≤ 16)

/-- What `N`, `I` and `P` satisfy at each phase of the long path, from the end of `LONGENT` to the end of the call
(R140). In the 48-byte stage `P` is a sum of 48s. -/
def longShape (s : State) : Bool :=
  (holds s.n fun n => decide (17 ≤ n.toNat)) &&
    (if s.phase = Phase.blk48 then countersOk s fun _ i p => cond48 s.variant i && decide (p % 48 = 0)
    else if s.phase = Phase.fold3 then
      countersOk s fun _ i p =>
        !cond48 s.variant i && decide (p % 48 = 0) && (s.variant.incl48 || decide (1 ≤ i))
    else if s.phase = Phase.blk16 then countersOk s fun n i _ => decide (16 < i) && !wholeBlocks s.variant n
    else countersOk s fun n i _ => leftAtTail s.variant n i)

/-- What holds at each phase: which registers a call has written by then and how they are related (R140, R163, R206).
The reserved codes are not reached (R78). -/
def phaseShape (s : State) : Bool :=
  if s.phase = Phase.idle then s.result.isNone && decide (s.var = 0#1)
  else s.s0.isSome && s.n.isSome && decide (s.result.isSome = s.done) &&
    (if s.phase = Phase.seedmix ∨ s.phase = Phase.dispatch then true
    else if s.phase = Phase.ld0 then holds s.n fun n => decide (n.toNat = 0)
    else if s.phase = Phase.ld3 then holds s.n fun n => decide (1 ≤ n.toNat ∧ n.toNat ≤ 3)
    else if s.phase = Phase.ld4 then holds s.n fun n => decide (4 ≤ n.toNat ∧ n.toNat ≤ 16)
    else if s.phase = Phase.longent then holds s.n fun n => decide (17 ≤ n.toNat)
    else if s.phase = Phase.blk48 ∨ s.phase = Phase.fold3 then s.s1.isSome && s.s2.isSome && longShape s
    else if s.phase = Phase.blk16 ∨ s.phase = Phase.tail then longShape s
    else if s.phase = Phase.final ∨ s.phase = Phase.done then
      s.a.isSome && s.b.isSome && ((holds s.n fun n => decide (n.toNat ≤ 16)) || longShape s)
    else false)

/-- The invariant of every state a run reaches: the key space is in canonical form and the phase's shape holds. -/
def State.Inv (s : State) : Prop := s.key.wf = true ∧ phaseShape s = true

/-- The next turn is the sequencer's. -/
def State.sequencerNext (s : State) : Bool :=
  match s.turns with
  | [] => true
  | .sequencer :: _ => true
  | .host _ :: _ => false

/-- The next turn is a reset (R200). -/
def State.resetNext (s : State) : Bool :=
  match s.turns with
  | .host .reset :: _ => true
  | _ => false

/-- The next turn is a write to `CMD`. -/
def State.commandNext (s : State) : Bool :=
  match s.turns with
  | .host (.wrCmd _) :: _ => true
  | _ => false

/-- The key length of the state enters the 48-byte stage (R131). -/
def State.entersBlk48 (s : State) : Bool := holds s.n fun n => cond48 s.variant n.toNat

/-- The registers an operation reads in a state (R42), of those that may hold no value. `N` bounds every read of the key
(R56). `LONGENT` reads `S0` where it copies it (R132). -/
def operandRegs (s : State) : Instr → List Reg
  | .mum _ _ | .mix _ _ => []
  | .read3 _ | .read4 _ | .read8 _ => [.n]
  | .seedmix => [.s0]
  | .dispatch => [.n]
  | .ld0 => [.s0]
  | .ld3 | .ld4 => [.s0, .n]
  | .longent => if s.entersBlk48 then [.n, .s0] else [.n]
  | .blk48 => [.s0, .s1, .s2, .i, .p, .n]
  | .fold3 => [.s0, .s1, .s2, .i]
  | .blk16 => [.s0, .i, .p, .n]
  | .tail => [.s0, .n]
  | .final => [.a, .b, .n]
  | .nop _ | .start _ => []

/-- `count` consecutive offsets from `o` on. -/
def span (o count : Nat) : List Nat := (List.range count).map (o + ·)

/-- The offsets a register's value gives; none where it holds no value. -/
def offsetsFrom (r : Option Word) (offsets : Word → List Nat) : List Nat :=
  match r with
  | some v => offsets v
  | none => []

/-- The key offsets an operation reads in a state (the call sites of the readers: R104, R42's `KEY`), as the registers
that place its windows stand. -/
def keyOffsets (s : State) : Instr → List Nat
  | .read3 len => [0, len.toNat / 2, len.toNat - 1]
  | .read4 offset => span offset.toNat 4
  | .read8 offset => span offset.toNat 8
  | .ld3 => offsetsFrom s.n fun n => [0, n.toNat / 2, n.toNat - 1]
  | .ld4 => offsetsFrom s.n fun n =>
    span 0 4 ++ span (n.toNat / 8 * 4) 4 ++ span (n.toNat - 4) 4 ++ span (n.toNat - 4 - n.toNat / 8 * 4) 4
  | .blk48 => offsetsFrom s.p fun p => span p.toNat 48
  | .blk16 => offsetsFrom s.p fun p => span p.toNat 16
  | .tail => offsetsFrom s.n fun n => span (n.toNat - 16) 16
  | .mum _ _ | .mix _ _ | .seedmix | .dispatch | .ld0 | .longent | .fold3 | .final | .nop _ | .start _ => []

/-- The launch premises of a run (R169), in the state in which the host issues `START`: the command is accepted there
(R112), `PERR = 0`, both inputs hold values, every byte of `KEY[0..LEN_IN-1]` holds a value, and the variant record is
well formed (R10). -/
structure State.LaunchPremises (s : State) (var : BitVec 1) (seed n : Word) : Prop where
  phase : s.phase = Phase.idle ∨ s.phase = Phase.done
  perr : s.perr = false
  seedIn : s.seedIn = some seed
  lenIn : s.lenIn = some n
  key : s.KeyComplete n
  variant : variantWf (variantOf var) = true

/-- The state from which R162 follows the sequencer: `PHASE = SEEDMIX`, `S0` and `N` latched, the key complete. It asks
nothing of `PERR`, which has no effect on a call (R28), nor of the inputs, which the host may have written anew (R34). -/
def State.Begun (s : State) (seed n : Word) : Prop :=
  s.phase = Phase.seedmix ∧ s.s0 = some seed ∧ s.n = some n ∧ s.KeyComplete n

/-- The start of a run (R169): the state just after an accepted `START` whose launch premises hold. -/
def State.Launched (s : State) (seed n : Word) : Prop :=
  s.Begun seed n ∧ s.perr = false ∧ s.seedIn = some seed ∧ s.lenIn = some n ∧ variantWf s.variant = true

/-- A run is over when `PHASE = DONE` (R169). -/
def State.Over (s : State) : Prop := s.phase = Phase.done

/-- A good end of a run: over, and `PERR` is 0 (R169, R181). -/
def State.EndedWell (s : State) : Prop := s.Over ∧ s.perr = false

end Sys2Proof.Machine
end

