-- ==== Sys2Proof/Certificates/Slice0/Obligations.lean ====
section
/-!
DEFINITION. The statements for the provers, from the numbered rules of spec/. Each docstring names the rule.
-/

open Sys2Proof Sys2Proof.Machine

/-! ## The primitives (spec/40, spec/41) -/

/-- R90: `MUM` outputs the two halves of the exact product, whatever the operands; the operands may be exchanged, and
the high half is at most `2^64 - 2`. -/
def Obligations.MumGivesBothHalves : Prop :=
  ∀ (s : State) (a b : Word), ∃ lo hi : Word,
    exec (.mum a b) s = .next { s with outputs := [lo, hi] } ∧
    exec (.mum b a) s = .next { s with outputs := [lo, hi] } ∧
    hi.toNat * 2 ^ 64 + lo.toNat = a.toNat * b.toNat ∧ hi.toNat ≤ 2 ^ 64 - 2

/-- R92: `MIX` outputs the XOR of the two halves of the exact product; a zero operand erases the other, a one gives the
other, and the operands may be exchanged. -/
def Obligations.MixFoldsTheProduct : Prop :=
  ∀ (s : State) (a b : Word),
    (∃ lo hi : Word, hi.toNat * 2 ^ 64 + lo.toNat = a.toNat * b.toNat ∧
      exec (.mix a b) s = .next { s with outputs := [lo ^^^ hi] } ∧
      exec (.mix b a) s = .next { s with outputs := [lo ^^^ hi] }) ∧
    exec (.mix 0 b) s = .next { s with outputs := [0] } ∧
    exec (.mix 1 b) s = .next { s with outputs := [b] }

/-- R91 (the spec marks the sequence as derived from R90): the split multiply is the wide multiply. -/
def Obligations.SplitMultiplyEqualsWideMultiply : Prop :=
  ∀ a b : Word, mumSplit a b = mum a b

/-- R100: `READ3 len` puts the bytes at `0`, `len >> 1` and `len - 1` at bits 23:16, 15:8 and 7:0. -/
def Obligations.Read3PlacesThreeBytes : Prop :=
  ∀ (s : State) (n len : Word) (b0 b1 b2 : Byte),
    s.n = some n → 1 ≤ len.toNat → len.toNat ≤ 3 → len.toNat ≤ n.toNat →
    s.key.read 0 = some b0 → s.key.read (len.toNat / 2) = some b1 → s.key.read (len.toNat - 1) = some b2 →
    exec (.read3 len) s = .next { s with
      outputs := [(b0.setWidth 64 <<< 16) ||| (b1.setWidth 64 <<< 8) ||| b2.setWidth 64] }

/-- R101: `READ4 offset` assembles four bytes, the lowest offset least significant, bits 63:32 zero. -/
def Obligations.Read4IsLittleEndian : Prop :=
  ∀ (s : State) (n o : Word) (c0 c1 c2 c3 : Byte),
    s.n = some n → o.toNat + 4 ≤ n.toNat →
    s.key.read o.toNat = some c0 → s.key.read (o.toNat + 1) = some c1 →
    s.key.read (o.toNat + 2) = some c2 → s.key.read (o.toNat + 3) = some c3 →
    exec (.read4 o) s = .next { s with outputs := [(0#32 ++ c3 ++ c2 ++ c1 ++ c0 : BitVec 64)] }

/-- R102: `READ8 offset` assembles eight bytes, the lowest offset least significant. -/
def Obligations.Read8IsLittleEndian : Prop :=
  ∀ (s : State) (n o : Word) (c0 c1 c2 c3 c4 c5 c6 c7 : Byte),
    s.n = some n → o.toNat + 8 ≤ n.toNat →
    s.key.read o.toNat = some c0 → s.key.read (o.toNat + 1) = some c1 →
    s.key.read (o.toNat + 2) = some c2 → s.key.read (o.toNat + 3) = some c3 →
    s.key.read (o.toNat + 4) = some c4 → s.key.read (o.toNat + 5) = some c5 →
    s.key.read (o.toNat + 6) = some c6 → s.key.read (o.toNat + 7) = some c7 →
    exec (.read8 o) s = .next { s with
      outputs := [(c7 ++ c6 ++ c5 ++ c4 ++ c3 ++ c2 ++ c1 ++ c0 : BitVec 64)] }

/-- R54, R102 (the spec marks it as derived): an eight-byte read sees the bytes of two four-byte reads. -/
def Obligations.Read8IsTwoRead4 : Prop :=
  ∀ (k : KeyView) (o : Nat) (x y : Word),
    read4 k o = .ok x → read4 k (o + 4) = .ok y → read8 k o = .ok (x ||| (y <<< 32))

/-- R56 with 92 D19, R100: a read window that does not end inside the key stops with a model fault, as does `READ3`
outside its precondition (log 15). -/
def Obligations.ReadersStopOutsideTheKey : Prop :=
  ∀ (s : State) (n o : Word), s.n = some n →
    (n.toNat < o.toNat + 4 → exec (.read4 o) s = .fault (.keyOutOfBounds o.toNat 4 n.toNat)) ∧
    (n.toNat < o.toNat + 8 → exec (.read8 o) s = .fault (.keyOutOfBounds o.toNat 8 n.toNat)) ∧
    (o.toNat = 0 ∨ 3 < o.toNat → exec (.read3 o) s = .fault (.read3Length o.toNat)) ∧
    (1 ≤ o.toNat → o.toNat ≤ 3 → n.toNat < o.toNat → ∃ f, exec (.read3 o) s = .fault f)

/-- R14, R42 with 93 U11 (which registers a block operation and `LONGENT` read: log 16): an operation one of whose operand
registers holds no value stops with a model fault. R14, R55 with 93 U11: so does one that reads a key byte that holds no
value, whichever byte of whichever of its windows. -/
def Obligations.OperandWithoutValueStops : Prop :=
  ∀ (i : Instr) (s : State),
    (∀ r ∈ operandRegs s i, s.reg r = none → ∃ f, exec i s = .fault f) ∧
    (∀ o ∈ keyOffsets s i, s.key.read o = none → ∃ f, exec i s = .fault f)

/-! ## The host commands (spec/42 R112) -/

/-- R112, the whole rule: what a write of any word to `CMD` does in any state. -/
def Obligations.CommandWriteRule : Prop :=
  ∀ (w : BitVec 8) (s : State),
    writeCommand w s =
      if w.extractLsb' 5 3 ≠ 0#3 ∨ 2 ≤ (w.extractLsb' 0 4).toNat then .next { s with perr := true }
      else if w.extractLsb' 0 4 = 0#4 then .next s
      else if s.phase ≠ Phase.idle ∧ s.phase ≠ Phase.done then .next { s with perr := true }
      else if s.seedIn = none ∨ s.lenIn = none then .next { s with perr := true }
      else .next { s with
        var := w.extractLsb' 4 1, s0 := s.seedIn, n := s.lenIn
        s1 := none, s2 := none, a := none, b := none, i := none, p := none, result := none
        phase := Phase.seedmix }

/-- R112, R75: `NOP` has no effect in any state, whichever its bit 4. -/
def Obligations.NopHasNoEffect : Prop :=
  ∀ (v : BitVec 1) (s : State), exec (.nop v) s = .next s

/-- R41: the state at an accepted `START`; `PERR`, `SEED_IN`, `LEN_IN` and `KEY` are unchanged. -/
def Obligations.AcceptedStartLatchesInputs : Prop :=
  ∀ (var : BitVec 1) (s : State) (seed len : Word),
    (s.phase = Phase.idle ∨ s.phase = Phase.done) → s.seedIn = some seed → s.lenIn = some len →
    exec (.start var) s = .next { s with
      var := var, s0 := some seed, n := some len
      s1 := none, s2 := none, a := none, b := none, i := none, p := none, result := none
      phase := Phase.seedmix }

/-- R181, R186: a `START` while a call runs, or before both inputs are written, sets `PERR` and changes nothing else. -/
def Obligations.RejectedStartSetsPerrOnly : Prop :=
  ∀ (var : BitVec 1) (s : State),
    (s.busy = true ∨ s.seedIn = none ∨ s.lenIn = none) →
    exec (.start var) s = .next { s with perr := true }

/-! ## The phase operations (spec/42, spec/43, spec/44) -/

/-- R113, with the seed formula of R111, which the spec marks as from general knowledge (log 14): `SEEDMIX`. -/
def Obligations.SeedmixDerivesTheSeed : Prop :=
  ∀ (s : State) (s0 : Word), s.s0 = some s0 →
    exec .seedmix s = .next { s with
      s0 := some (s0 ^^^ mix (s0 ^^^ (variantOf s.var).k0) (variantOf s.var).k1)
      phase := Phase.dispatch }

/-- R115 with R114: `DISPATCH` routes by the length alone and writes nothing but `PHASE`. -/
def Obligations.DispatchRoutesByLength : Prop :=
  ∀ (s : State) (n : Word), s.n = some n →
    exec .dispatch s = .next { s with
      phase := if n.toNat = 0 then Phase.ld0
        else if n.toNat < 4 then Phase.ld3
        else if n.toNat ≤ 16 then Phase.ld4
        else Phase.longent }

/-- R116: `LD0`. -/
def Obligations.Ld0LoadsTheEmptyKey : Prop :=
  ∀ (s : State) (s0 : Word), s.s0 = some s0 →
    exec .ld0 s = .next { s with
      a := some (variantOf s.var).k1, b := some s0, phase := Phase.final }

/-- R117: `LD3`, for the lengths it is reached with. -/
def Obligations.Ld3LoadsOneToThreeBytes : Prop :=
  ∀ (s : State) (s0 n : Word) (b0 b1 b2 : Byte),
    s.s0 = some s0 → s.n = some n → 1 ≤ n.toNat → n.toNat ≤ 3 →
    s.key.read 0 = some b0 → s.key.read (n.toNat / 2) = some b1 → s.key.read (n.toNat - 1) = some b2 →
    exec .ld3 s = .next { s with
      a := some (((b0.setWidth 64 <<< 16) ||| (b1.setWidth 64 <<< 8) ||| b2.setWidth 64) ^^^ (variantOf s.var).k1)
      b := some s0, phase := Phase.final }

/-- R119 with R118: `LD4`, for the lengths it is reached with: four reads at `0`, `d`, `n-4`, `n-4-d` with
`d = (n >> 3) << 2`. The spec marks the window table and the packing as from general knowledge (log 14). -/
def Obligations.Ld4PacksFourWindows : Prop :=
  ∀ (s : State) (s0 n : Word),
    s.s0 = some s0 → s.n = some n → 4 ≤ n.toNat → n.toNat ≤ 16 → s.KeyComplete n →
    ∃ w0 w1 w2 w3 : Word,
      read4 (s.keyView n) 0 = .ok w0 ∧ read4 (s.keyView n) (n.toNat / 8 * 4) = .ok w1 ∧
      read4 (s.keyView n) (n.toNat - 4) = .ok w2 ∧ read4 (s.keyView n) (n.toNat - 4 - n.toNat / 8 * 4) = .ok w3 ∧
      exec .ld4 s = .next { s with
        a := some (((w0 <<< 32) ||| w1) ^^^ (variantOf s.var).k1)
        b := some (((w2 <<< 32) ||| w3) ^^^ s0), phase := Phase.final }

/-- R132 with R131: `LONGENT`; Variant A enters the 48-byte stage at `N ≥ 48`, Variant B at `N > 48`. The spec marks
which variant compares inclusively as from general knowledge (log 14). Where the stage is not entered the rule copies
no `S0`, so nothing is asked of it (log 16). -/
def Obligations.LongentEntersTheLongPath : Prop :=
  ∀ (s : State) (n : Word), s.n = some n →
    if (s.var = 0#1 ∧ 48 ≤ n.toNat) ∨ (s.var = 1#1 ∧ 48 < n.toNat) then
      ∀ s0, s.s0 = some s0 → exec .longent s =
        .next { s with i := some n, p := some 0, s1 := some s0, s2 := some s0, phase := Phase.blk48 }
    else exec .longent s = .next { s with i := some n, p := some 0, phase := Phase.blk16 }

/-- R133: `BLK48`, where the 48 bytes from `P` on are inside the key. -/
def Obligations.Blk48UpdatesThreeLanes : Prop :=
  ∀ (s : State) (s0 s1 s2 i p n : Word),
    s.s0 = some s0 → s.s1 = some s1 → s.s2 = some s2 → s.i = some i → s.p = some p → s.n = some n →
    48 ≤ i.toNat → p.toNat + 48 ≤ n.toNat → s.KeyComplete n →
    ∃ r0 r1 r2 r3 r4 r5 : Word,
      read8 (s.keyView n) p.toNat = .ok r0 ∧ read8 (s.keyView n) (p.toNat + 8) = .ok r1 ∧
      read8 (s.keyView n) (p.toNat + 16) = .ok r2 ∧ read8 (s.keyView n) (p.toNat + 24) = .ok r3 ∧
      read8 (s.keyView n) (p.toNat + 32) = .ok r4 ∧ read8 (s.keyView n) (p.toNat + 40) = .ok r5 ∧
      exec .blk48 s = .next { s with
        s0 := some (mix (r0 ^^^ (variantOf s.var).k1) (r1 ^^^ s0))
        s1 := some (mix (r2 ^^^ (variantOf s.var).k2) (r3 ^^^ s1))
        s2 := some (mix (r4 ^^^ (variantOf s.var).k3) (r5 ^^^ s2))
        p := some (p + 48), i := some (i - 48)
        phase := if cond48 (variantOf s.var) (i.toNat - 48) then Phase.blk48 else Phase.fold3 }

/-- R134: `FOLD3`. -/
def Obligations.Fold3FoldsTheLanes : Prop :=
  ∀ (s : State) (s0 s1 s2 i : Word),
    s.s0 = some s0 → s.s1 = some s1 → s.s2 = some s2 → s.i = some i →
    exec .fold3 s = .next { s with
      s0 := some (s0 ^^^ s1 ^^^ s2)
      phase := if 16 < i.toNat then Phase.blk16 else Phase.tail }

/-- R135: `BLK16`, where the 16 bytes from `P` on are inside the key. -/
def Obligations.Blk16FoldsOneChunk : Prop :=
  ∀ (s : State) (s0 i p n : Word),
    s.s0 = some s0 → s.i = some i → s.p = some p → s.n = some n →
    16 < i.toNat → p.toNat + 16 ≤ n.toNat → s.KeyComplete n →
    ∃ r0 r1 : Word,
      read8 (s.keyView n) p.toNat = .ok r0 ∧ read8 (s.keyView n) (p.toNat + 8) = .ok r1 ∧
      exec .blk16 s = .next { s with
        s0 := some (mix (r0 ^^^ (variantOf s.var).k1) (r1 ^^^ s0))
        p := some (p + 16), i := some (i - 16)
        phase := if 16 < i.toNat - 16 then Phase.blk16 else Phase.tail }

/-- R136: `TAIL` loads the last 16 bytes of the key, wherever `P` and `I` stand. -/
def Obligations.TailLoadsTheLastSixteenBytes : Prop :=
  ∀ (s : State) (s0 n : Word),
    s.s0 = some s0 → s.n = some n → 17 ≤ n.toNat → s.KeyComplete n →
    ∃ x y : Word,
      read8 (s.keyView n) (n.toNat - 16) = .ok x ∧ read8 (s.keyView n) (n.toNat - 8) = .ok y ∧
      exec .tail s = .next { s with
        a := some (x ^^^ (variantOf s.var).k1), b := some (y ^^^ s0), phase := Phase.final }

/-- R150: `FINAL`. -/
def Obligations.FinalMultipliesAndMixes : Prop :=
  ∀ (s : State) (a b n : Word), s.a = some a → s.b = some b → s.n = some n →
    ∃ lo hi : Word, hi.toNat * 2 ^ 64 + lo.toNat = a.toNat * b.toNat ∧
      exec .final s = .next { s with
        a := some lo, b := some hi
        result := some (mix (lo ^^^ (variantOf s.var).k0 ^^^ n) (hi ^^^ (variantOf s.var).k1))
        phase := Phase.done }

/-- R10, R118 (a table the spec marks as from general knowledge: log 14): for both variants every length 4..16 has a
window row, each window ends inside the key, and the highest ends at its last byte. -/
def Obligations.WindowsFitTheKey : Prop :=
  ∀ (var : BitVec 1) (n : Word), 4 ≤ n.toNat → n.toNat ≤ 16 →
    ∃ w : Windows, (variantOf var).win n = some w ∧
      w.ah.toNat + 4 ≤ n.toNat ∧ w.al.toNat + 4 ≤ n.toNat ∧
      w.bh.toNat + 4 = n.toNat ∧ w.bl.toNat + 4 ≤ n.toNat

/-! ## The step (spec/45 R165) -/

/-- R165 a: on the sequencer's turn (none listed, or its own at the head, which is then consumed: log 4) a step is
exactly the operation `PHASE` names. -/
def Obligations.StepRunsThePhaseOperation : Prop :=
  ∀ (s : State) (i : Instr), decode (.phase s.phase) = .instr i →
    (s.turns = [] → step s = exec i s) ∧
    (∀ rest, s.turns = .sequencer :: rest → step s = exec i { s with turns := rest })

/-- R165 b, R112, R181: when the host's next action writes a word to `CMD`, a step is that write (`CommandWriteRule` says
what it does): a command word is exactly its command, and a reserved word sets `PERR` and changes nothing else. -/
def Obligations.StepRunsTheCommandWord : Prop :=
  ∀ (s : State) (w : BitVec 8) (rest : List Turn), s.turns = .host (.wrCmd w) :: rest →
    step s = writeCommand w { s with turns := rest } ∧
    (∀ i, decode (.command w) = .instr i → step s = exec i { s with turns := rest }) ∧
    ((w.extractLsb' 5 3 ≠ 0#3 ∨ 2 ≤ (w.extractLsb' 0 4).toNat) → step s = .next { s with turns := rest, perr := true })

/-- R164, R78 a, in the model's form (log 5): on the sequencer's turn, with nothing to come from outside or with its
own turn listed next, `IDLE` and `DONE` persist, and a reserved code is stuck. -/
def Obligations.SequencerWithoutStep : Prop :=
  ∀ s : State,
    (s.turns = [] →
      ((s.phase = Phase.idle ∨ s.phase = Phase.done) → step s = .next s) ∧
      (0xD ≤ s.phase.toNat → step s = .fault (.reservedPhase s.phase))) ∧
    (∀ rest, s.turns = .sequencer :: rest →
      ((s.phase = Phase.idle ∨ s.phase = Phase.done) → step s = .next { s with turns := rest }) ∧
      (0xD ≤ s.phase.toNat → step s = .fault (.reservedPhase s.phase)))

/-- R170, R34, R35, R32: the host's writes of `SEED_IN` and `LEN_IN` write that register at any time and nothing else; a
write to the read-only registers has no effect (for `RESULT` the model's reading: log 9). -/
def Obligations.HostWritesOfRegisters : Prop :=
  ∀ (s : State) (v : Word) (w : BitVec 8) (rest : List Turn),
    (s.turns = .host (.wrSeed v) :: rest → step s = .next { s with turns := rest, seedIn := some v }) ∧
    (s.turns = .host (.wrLen v) :: rest → step s = .next { s with turns := rest, lenIn := some v }) ∧
    (s.turns = .host (.wrStatus w) :: rest → step s = .next { s with turns := rest }) ∧
    (s.turns = .host (.wrResult v) :: rest → step s = .next { s with turns := rest })

/-- R170, R50: `WRKEY` outside a running call's key writes these bytes, leaves every other offset as it was, and keeps
the key space canonical. -/
def Obligations.HostWritesOfTheKey : Prop :=
  ∀ (s : State) (o : Word) (bytes : List Byte) (rest : List Turn),
    s.turns = .host (.wrKey o bytes) :: rest → s.key.wf = true → o.toNat + bytes.length ≤ 2 ^ 64 →
    (s.busy = false ∨ ∀ n, s.n = some n → n.toNat ≤ o.toNat) →
    ∃ key : Memory, step s = .next { s with turns := rest, key := key } ∧ key.wf = true ∧
      (∀ j, j < bytes.length → key.read (o.toNat + j) = bytes[j]?) ∧
      (∀ o', o' < o.toNat ∨ o.toNat + bytes.length ≤ o' → key.read o' = s.key.read o')

/-- R55, R170 with 93 U12, R50 (log 7, log 8): the model gives the host no move that writes a key byte below `N` while
`BUSY`, nor one that writes past the 64-bit offset space. -/
def Obligations.HostKeyWritesThatStop : Prop :=
  ∀ (s : State) (o n : Word) (bytes : List Byte) (rest : List Turn),
    s.turns = .host (.wrKey o bytes) :: rest →
    (2 ^ 64 < o.toNat + bytes.length → step s = .fault (.keyOffsetOutsideSpace (2 ^ 64))) ∧
    (o.toNat + bytes.length ≤ 2 ^ 64 → s.busy = true → s.n = some n → bytes ≠ [] → o.toNat < n.toNat →
      step s = .refused (.keyWriteDuringCall o.toNat))

/-- R32: what `RD STATUS` returns, bit by bit, with no side effect on the block; a write to `STATUS` has no effect. -/
def Obligations.StatusIsComposed : Prop :=
  ∀ (s : State) (w : BitVec 8) (rest : List Turn),
    (s.turns = .host (.rd .status) :: rest →
      ∃ st : BitVec 8,
        step s = .next { s with turns := rest, reads := { reg := .status, value := st.setWidth 64 } :: s.reads } ∧
        st[0] = decide (1 ≤ s.phase.toNat ∧ s.phase.toNat ≤ 11) ∧ st[1] = decide (s.phase.toNat = 12) ∧
        st[2] = s.perr ∧ st[3] = decide (s.var = 1#1) ∧ st.extractLsb' 4 4 = 0#4 ∧
        ¬ (st[0] = true ∧ st[1] = true) ∧
        (s.phase.toNat ≤ 12 → ((st[0] = false ∧ st[1] = false) ↔ s.phase = Phase.idle))) ∧
    (s.turns = .host (.wrStatus w) :: rest → step s = .next { s with turns := rest })

/-- R170, R33, R31: a host read returns the register's value, or some value where it holds none (and for the write-only
`CMD`), and changes nothing of the block (the value and its counter are the model's own: log 3, log 10). -/
def Obligations.HostReadsOfRegisters : Prop :=
  ∀ (s : State) (rest : List Turn) (r : HostReg) (x : Option Word),
    s.turns = .host (.rd r) :: rest →
    (r = .seedIn ∧ x = s.seedIn ∨ r = .lenIn ∧ x = s.lenIn ∨ r = .result ∧ x = s.result ∨ r = .cmd ∧ x = none) →
    (∀ v, x = some v → step s = .next { s with turns := rest, reads := { reg := r, value := v } :: s.reads }) ∧
    (x = none → ∃ v, step s = .next { s with
      turns := rest, reads := { reg := r, value := v } :: s.reads, draws := s.draws + 1 })

/-- R79 in the model's form (log 17): `WAIT DONE` reads `STATUS`; it is over when bit 1 is 1, and otherwise the
sequencer has the next turn and the host reads again after it. -/
def Obligations.WaitDonePollsStatus : Prop :=
  ∀ (s : State) (rest : List Turn), s.turns = .host .waitDone :: rest →
    step s = .next { s with
      reads := { reg := .status, value := s.status.setWidth 64 } :: s.reads
      turns := if s.phase = Phase.done then rest else .sequencer :: .host .waitDone :: rest }

/-- R40: every field the rule names, right after reset; `STATUS` reads 0x00 and no key byte holds a value. -/
def Obligations.ResetLeavesControlStateOnly : Prop :=
  State.reset.phase = 0x0#4 ∧ State.reset.perr = false ∧ State.reset.var = 0#1 ∧ State.reset.status = 0x00#8 ∧
  (∀ r : Reg, State.reset.reg r = none) ∧ (∀ o : Nat, State.reset.key.read o = none)

/-- R200: reset, in every state, gives the state after reset; what the model keeps for the outside stays (log 18). -/
def Obligations.ResetFromEveryState : Prop :=
  ∀ (s : State) (rest : List Turn), s.turns = .host .reset :: rest →
    step s = .next { State.reset with turns := rest, reads := s.reads, draws := s.draws, outputs := s.outputs }

/-! ## Encodings (spec/30) -/

/-- R72, R73, R75: words written out from the tables decode to the operations they stand for. -/
def Obligations.TabledWordsDecode : Prop :=
  decode (.fn 0b000#3 [3, 5]) = .instr (.mum 3 5) ∧ decode (.fn 0b100#3 [9]) = .instr (.read8 9) ∧
  decode (.phase 0b0001#4) = .instr .seedmix ∧ decode (.phase 0b0101#4) = .instr .ld4 ∧
  decode (.phase 0b0111#4) = .instr .blk48 ∧ decode (.phase 0b1011#4) = .instr .final ∧
  decode (.phase 0b1101#4) = .rejected .reservedPhase ∧
  decode (.command 0b00010000#8) = .instr (.nop 1) ∧ decode (.command 0b00000001#8) = .instr (.start 0) ∧
  decode (.command 0b00010001#8) = .instr (.start 1) ∧ decode (.command 0b00100001#8) = .rejected .reservedCommand

/-- R72, R73, R75: the decoder and the encoder are inverse on all codes of the three formats: a code selects an
operation exactly when it is that operation's own code, so no bit is dropped and no two codes share a meaning. -/
def Obligations.DecodeInvertsEncode : Prop :=
  ∀ (c : Code) (i : Instr), decode c = .instr i ↔ c = encode i

/-- R72, R73, R75, R78: a code selects an operation exactly when the tables give it one; every other code is rejected. -/
def Obligations.ReservedCodesAreRejected : Prop :=
  ∀ c : Code, (∃ i, decode c = .instr i) ↔ c.wf = true

/-! ## Invariants and whole calls (spec/43, spec/45, spec/70) -/

/-- The invariant holds after reset. -/
def Obligations.ResetMeetsTheInvariant : Prop := State.reset.Inv

/-- R140, R163, R206, R78 (the spec marks R140 and R206 as derived): from every state that meets the invariant, every
step of the sequencer or the host gives a state that meets it. -/
def Obligations.EveryStepKeepsTheInvariant : Prop :=
  ∀ s t : State, s.Inv → step s = .next t → t.Inv

/-- R19, R165 a, R104 (the spec marks R104 as derived): in a call whose key is complete the sequencer's step always
answers a next state, and the length and the completeness of the key stay. -/
def Obligations.NoStepOfACallStops : Prop :=
  ∀ (s : State) (n : Word), s.Inv → s.busy = true → s.sequencerNext = true → s.n = some n → s.KeyComplete n →
    ∃ t, step s = .next t ∧ t.Inv ∧ t.n = some n ∧ t.KeyComplete n

/-- R162 with R166 (the spec marks both as derived) and R169: from an accepted `START` whose key is complete, the
sequencer stepping alone is busy for exactly `steps(V, n)` steps and then `DONE`, with
`RESULT = wyhash_core(V, seed, key)` and `STATUS = 0x02 | (VAR << 3) | (PERR << 2)`; where all of R169's launch premises
hold, the run has ended well. -/
def Obligations.SequencerComputesWyhash : Prop :=
  ∀ (s : State) (seed n : Word), s.Begun seed n → s.turns = [] →
    (∀ k, k < callSteps (variantOf s.var) n.toNat →
      ∃ u : State, Sys2Proof.core.run k s = .next u ∧ u.busy = true) ∧
    ∃ (t : State) (r : Word),
      Sys2Proof.core.run (callSteps (variantOf s.var) n.toNat) s = .next t ∧
      t.phase = Phase.done ∧ t.result = some r ∧
      wyhashCore (variantOf s.var) seed (s.keyView n) = .ok r ∧
      t.status = 0x02#8 ||| (s.var.setWidth 8 <<< 3) ||| ((BitVec.ofBool s.perr).setWidth 8 <<< 2) ∧
      (s.Launched seed n → t.EndedWell)

/-- R18 (there derived from R161, R162): the result of a call is a function of the variant, the seed, the length and the
key bytes below it; whatever else the two blocks hold, and however they came to be launched, the results agree. -/
def Obligations.ResultDependsOnInputsOnly : Prop :=
  ∀ (s s' : State) (seed n : Word),
    s.Begun seed n → s'.Begun seed n → s.var = s'.var → s.turns = [] → s'.turns = [] →
    (∀ o, o < n.toNat → s.key.read o = s'.key.read o) →
    ∃ t t' : State,
      Sys2Proof.core.run (callSteps (variantOf s.var) n.toNat) s = .next t ∧
      Sys2Proof.core.run (callSteps (variantOf s.var) n.toNat) s' = .next t' ∧
      t.result = t'.result ∧ t.result.isSome = true

/-- R19, R80: every seed, any integer, and every key shorter than 2^64 bytes has a result, under both variants: no read
of R161's function falls outside the key, and `HASH` and `HASHHEX` have their values, and `HASH` its six host
actions in R80's order. A key of 2^64 bytes
or more is not admitted and has none of them (R7, 92 D14; the model's form: log 26). -/
def Obligations.EveryInputHasAResult : Prop :=
  ∀ (var : BitVec 1) (seed : Int) (key : List Byte),
    (key.length < 2 ^ 64 →
      hashTurns var seed key = some
        [.host (.wrSeed (norm64 seed)), .host (.wrLen (BitVec.ofNat 64 key.length)), .host (.wrKey 0#64 key),
          .host (.wrCmd (if var = 0#1 then 0x01#8 else 0x11#8)), .host .waitDone, .host (.rd .result)] ∧
      ∃ r, wyhashCore (variantOf var) (norm64 seed) (keyOfList key) = .ok r ∧
        hashValue var seed key = some r ∧ hashHex var seed key = some (fmt (variantOf var) r)) ∧
    (2 ^ 64 ≤ key.length →
      hashTurns var seed key = none ∧ hashValue var seed key = none ∧ hashHex var seed key = none)

/-- R142, R166, R167 (the spec marks the counts as derived): the bytes left, the chunk steps and the bound on the steps. -/
def Obligations.StepCountsAreBounded : Prop :=
  ∀ n : Nat, callSteps variantA n ≤ n / 48 + 8 ∧ callSteps variantB n ≤ n / 48 + 8 ∧
    (17 ≤ n → bytesLeft variantA n ≤ 47 ∧ 1 ≤ bytesLeft variantB n ∧ bytesLeft variantB n ≤ 48 ∧
      blk16Steps variantA n ≤ 2 ∧ blk16Steps variantB n ≤ 2)

/-! ## What any step can do (spec/10, spec/20, spec/45, spec/60, spec/70) -/

/-- R163: the successor of each phase, by the sequencer and by the host. -/
def Obligations.PhaseSuccessors : Prop :=
  ∀ s t : State, step s = .next t →
    (s.sequencerNext = true →
      ((s.phase = Phase.idle ∨ s.phase = Phase.done) → t.phase = s.phase) ∧
      (s.phase = Phase.seedmix → t.phase = Phase.dispatch) ∧
      (s.phase = Phase.dispatch → ∃ n, s.n = some n ∧
        t.phase = if n.toNat = 0 then Phase.ld0 else if n.toNat ≤ 3 then Phase.ld3
          else if n.toNat ≤ 16 then Phase.ld4 else Phase.longent) ∧
      ((s.phase = Phase.ld0 ∨ s.phase = Phase.ld3 ∨ s.phase = Phase.ld4) → t.phase = Phase.final) ∧
      (s.phase = Phase.longent → ∃ n, s.n = some n ∧
        t.phase = if cond48 (variantOf s.var) n.toNat then Phase.blk48 else Phase.blk16) ∧
      (s.phase = Phase.blk48 → ∃ i', t.i = some i' ∧
        t.phase = if cond48 (variantOf s.var) i'.toNat then Phase.blk48 else Phase.fold3) ∧
      (s.phase = Phase.fold3 → ∃ i, s.i = some i ∧
        t.phase = if 16 < i.toNat then Phase.blk16 else Phase.tail) ∧
      (s.phase = Phase.blk16 → ∃ i', t.i = some i' ∧
        t.phase = if 16 < i'.toNat then Phase.blk16 else Phase.tail) ∧
      (s.phase = Phase.tail → t.phase = Phase.final) ∧
      (s.phase = Phase.final → t.phase = Phase.done)) ∧
    (s.sequencerNext = false →
      t.phase = s.phase ∨
      (s.commandNext = true ∧ (s.phase = Phase.idle ∨ s.phase = Phase.done) ∧ t.phase = Phase.seedmix) ∨
      (s.resetNext = true ∧ t.phase = Phase.idle))

/-- R201, R28: only reset clears `PERR` and only reset returns `PHASE` to `IDLE`; only a write to `CMD` sets `PERR`. -/
def Obligations.OnlyResetClearsPerrAndReturnsToIdle : Prop :=
  ∀ s t : State, step s = .next t → s.resetNext = false →
    (s.perr = true → t.perr = true) ∧ (t.phase = Phase.idle → s.phase = Phase.idle) ∧
    (s.perr = false → t.perr = true → s.commandNext = true)

/-- R165 b (there derived): a host action other than reset leaves the datapath registers, `VAR` and `PHASE` as they
were, but for an accepted `START`, which needs `IDLE` or `DONE`. -/
def Obligations.HostActionsLeaveTheDatapath : Prop :=
  ∀ s t : State, step s = .next t → s.sequencerNext = false → s.resetNext = false →
    (s.commandNext = true ∧ (s.phase = Phase.idle ∨ s.phase = Phase.done) ∧ t.phase = Phase.seedmix) ∨
    (t.s0 = s.s0 ∧ t.s1 = s.s1 ∧ t.s2 = s.s2 ∧ t.a = s.a ∧ t.b = s.b ∧ t.n = s.n ∧ t.i = s.i ∧ t.p = s.p ∧
      t.result = s.result ∧ t.var = s.var ∧ t.phase = s.phase)

/-- R27, R24: `VAR` and `N` are constant during a call, whatever the host does short of reset. -/
def Obligations.VariantAndLengthConstantInACall : Prop :=
  ∀ s t : State, s.busy = true → step s = .next t → s.resetNext = false → t.var = s.var ∧ t.n = s.n

/-- R34, R35: `SEED_IN` and `LEN_IN` are changed only by the host's writes of them and by reset. -/
def Obligations.InputsChangedOnlyByTheHost : Prop :=
  ∀ s t : State, step s = .next t → s.resetNext = false →
    (t.seedIn ≠ s.seedIn → ∃ v rest, s.turns = .host (.wrSeed v) :: rest) ∧
    (t.lenIn ≠ s.lenIn → ∃ v rest, s.turns = .host (.wrLen v) :: rest)

/-- R29, R205, R61 c: `RESULT` is written only by the `FINAL` step and emptied only by an accepted `START` or reset; so
once `DONE` it is stable. -/
def Obligations.ResultWrittenOnlyByFinal : Prop :=
  ∀ s t : State, step s = .next t → t.result ≠ s.result →
    (s.sequencerNext = true ∧ s.phase = Phase.final ∧ t.phase = Phase.done) ∨
    (s.commandNext = true ∧ (s.phase = Phase.idle ∨ s.phase = Phase.done) ∧ t.phase = Phase.seedmix ∧
      t.result = none) ∨
    (s.resetNext = true ∧ t.result = none)

/-- R53: no operation writes the key space: after any operation that completes, every offset reads as before. It says
nothing of the ports `outputs`, which are the model's own (log 11). -/
def Obligations.NoOperationWritesTheKey : Prop :=
  ∀ (i : Instr) (s t : State), exec i s = .next t → ∀ o : Nat, t.key.read o = s.key.read o

/-- R61 a, R55, in the model's form (log 7): while a call runs, the key bytes below `N` stay as they are, whatever the
host does short of reset. -/
def Obligations.KeyConstantDuringACall : Prop :=
  ∀ (s t : State) (n : Word), s.key.wf = true → s.busy = true → s.n = some n → step s = .next t →
    s.resetNext = false → ∀ o : Nat, o < n.toNat → t.key.read o = s.key.read o

/-- R211 (there derived): the phase path depends on `N` and `VAR` alone: two blocks with equal `PHASE`, `VAR`, `N` and
`I` that take a sequencer step have them equal again, whatever their keys, seeds and lanes. -/
def Obligations.PhasePathIgnoresKeyAndSeed : Prop :=
  ∀ s s' t t' : State,
    s.phase = s'.phase → s.var = s'.var → s.n = s'.n → s.i = s'.i →
    s.sequencerNext = true → s'.sequencerNext = true → step s = .next t → step s' = .next t' →
    t.phase = t'.phase ∧ t.var = t'.var ∧ t.n = t'.n ∧ t.i = t'.i

/-! ## Frames (spec/10 R42) -/

/-- R42, writes column (there derived), for the primitives and the commands: what each may change; everything else,
every register, every byte of the key, is unchanged. -/
def Obligations.FramesOfPrimitivesAndCommands : Prop :=
  ∀ (s t : State),
    (∀ a b, exec (.mum a b) s = .next t → t = { s with outputs := t.outputs }) ∧
    (∀ a b, exec (.mix a b) s = .next t → t = { s with outputs := t.outputs }) ∧
    (∀ l, exec (.read3 l) s = .next t → t = { s with outputs := t.outputs }) ∧
    (∀ o, exec (.read4 o) s = .next t → t = { s with outputs := t.outputs }) ∧
    (∀ o, exec (.read8 o) s = .next t → t = { s with outputs := t.outputs }) ∧
    (∀ v, exec (.nop v) s = .next t → t = s) ∧
    (∀ v, exec (.start v) s = .next t →
      t = { s with perr := true } ∨
      t = { s with var := t.var, s0 := t.s0, n := t.n, phase := t.phase
                   s1 := none, s2 := none, a := none, b := none, i := none, p := none, result := none })

/-- R42, writes column (there derived), for the eleven phase operations: what each may change; everything else, every
register, every byte of the key, is unchanged. -/
def Obligations.FramesOfPhaseOperations : Prop :=
  ∀ s t : State,
    (exec .seedmix s = .next t → t = { s with s0 := t.s0, phase := t.phase }) ∧
    (exec .dispatch s = .next t → t = { s with phase := t.phase }) ∧
    (exec .ld0 s = .next t → t = { s with a := t.a, b := t.b, phase := t.phase }) ∧
    (exec .ld3 s = .next t → t = { s with a := t.a, b := t.b, phase := t.phase }) ∧
    (exec .ld4 s = .next t → t = { s with a := t.a, b := t.b, phase := t.phase }) ∧
    (exec .longent s = .next t →
      t = { s with i := t.i, p := t.p, s1 := t.s1, s2 := t.s2, phase := t.phase } ∧
      (t.phase ≠ Phase.blk48 → t.s1 = s.s1 ∧ t.s2 = s.s2)) ∧
    (exec .blk48 s = .next t →
      t = { s with s0 := t.s0, s1 := t.s1, s2 := t.s2, i := t.i, p := t.p, phase := t.phase }) ∧
    (exec .fold3 s = .next t → t = { s with s0 := t.s0, phase := t.phase }) ∧
    (exec .blk16 s = .next t → t = { s with s0 := t.s0, i := t.i, p := t.p, phase := t.phase }) ∧
    (exec .tail s = .next t → t = { s with a := t.a, b := t.b, phase := t.phase }) ∧
    (exec .final s = .next t → t = { s with a := t.a, b := t.b, result := t.result, phase := t.phase })

/-! ## The host's own functions (spec/42 R110, spec/44) -/

/-- R110: `norm64` is reduction modulo 2^64 of any integer. -/
def Obligations.SeedNormalisation : Prop :=
  ∀ z : Int, ((norm64 z).toNat : Int) = z % 2 ^ 64

/-- R154, R155, R156: the shape of the two renderings: sixteen digits, or one to sixteen with no leading zero but in "0",
and only the digits `0`..`9`, `a`..`f`. -/
def Obligations.FormattedShapes : Prop :=
  ∀ r : Word,
    (fmt variantB r).length = 16 ∧ 1 ≤ (fmt variantA r).length ∧ (fmt variantA r).length ≤ 16 ∧
    ((fmt variantA r).head? = some '0' → fmt variantA r = ['0'] ∧ r = 0) ∧
    (∀ V : VariantRecord, ∀ c ∈ fmt V r,
      c ∈ ['0', '1', '2', '3', '4', '5', '6', '7', '8', '9', 'a', 'b', 'c', 'd', 'e', 'f'])

/-- R156 (there derived): parsing the rendering as a base-16 numeral gives the result back, under either policy. -/
def Obligations.FormattedResultParsesBack : Prop :=
  ∀ (V : VariantRecord) (r : Word), parseHex (fmt V r) = some r.toNat
end

