-- ==== Sys2Proof/Laws/State.lean ====
section
/-!
SUPPORT. The named updates of State, one lemma per field: what each writes and what it leaves (spec/10_state.md R41,
spec/60_exceptions.md R181, R186, spec/70_reset_and_hazards.md R200).
-/

namespace Sys2Proof.Machine

/-! ### rejectCommand -/

@[simp] theorem State.rejectCommand_phase (s : State) : (s.rejectCommand).phase = s.phase := rfl
@[simp] theorem State.rejectCommand_var (s : State) : (s.rejectCommand).var = s.var := rfl
@[simp] theorem State.rejectCommand_perr (s : State) : (s.rejectCommand).perr = true := rfl
@[simp] theorem State.rejectCommand_s0 (s : State) : (s.rejectCommand).s0 = s.s0 := rfl
@[simp] theorem State.rejectCommand_s1 (s : State) : (s.rejectCommand).s1 = s.s1 := rfl
@[simp] theorem State.rejectCommand_s2 (s : State) : (s.rejectCommand).s2 = s.s2 := rfl
@[simp] theorem State.rejectCommand_a (s : State) : (s.rejectCommand).a = s.a := rfl
@[simp] theorem State.rejectCommand_b (s : State) : (s.rejectCommand).b = s.b := rfl
@[simp] theorem State.rejectCommand_n (s : State) : (s.rejectCommand).n = s.n := rfl
@[simp] theorem State.rejectCommand_i (s : State) : (s.rejectCommand).i = s.i := rfl
@[simp] theorem State.rejectCommand_p (s : State) : (s.rejectCommand).p = s.p := rfl
@[simp] theorem State.rejectCommand_result (s : State) : (s.rejectCommand).result = s.result := rfl
@[simp] theorem State.rejectCommand_seedIn (s : State) : (s.rejectCommand).seedIn = s.seedIn := rfl
@[simp] theorem State.rejectCommand_lenIn (s : State) : (s.rejectCommand).lenIn = s.lenIn := rfl
@[simp] theorem State.rejectCommand_key (s : State) : (s.rejectCommand).key = s.key := rfl
@[simp] theorem State.rejectCommand_turns (s : State) : (s.rejectCommand).turns = s.turns := rfl
@[simp] theorem State.rejectCommand_reads (s : State) : (s.rejectCommand).reads = s.reads := rfl
@[simp] theorem State.rejectCommand_draws (s : State) : (s.rejectCommand).draws = s.draws := rfl
@[simp] theorem State.rejectCommand_outputs (s : State) : (s.rejectCommand).outputs = s.outputs := rfl

/-! ### acceptStart -/

@[simp] theorem State.acceptStart_phase (s : State) (var : BitVec 1) (seed len : Word) : (s.acceptStart var seed len).phase = Phase.seedmix := rfl
@[simp] theorem State.acceptStart_var (s : State) (var : BitVec 1) (seed len : Word) : (s.acceptStart var seed len).var = var := rfl
@[simp] theorem State.acceptStart_perr (s : State) (var : BitVec 1) (seed len : Word) : (s.acceptStart var seed len).perr = s.perr := rfl
@[simp] theorem State.acceptStart_s0 (s : State) (var : BitVec 1) (seed len : Word) : (s.acceptStart var seed len).s0 = some seed := rfl
@[simp] theorem State.acceptStart_s1 (s : State) (var : BitVec 1) (seed len : Word) : (s.acceptStart var seed len).s1 = none := rfl
@[simp] theorem State.acceptStart_s2 (s : State) (var : BitVec 1) (seed len : Word) : (s.acceptStart var seed len).s2 = none := rfl
@[simp] theorem State.acceptStart_a (s : State) (var : BitVec 1) (seed len : Word) : (s.acceptStart var seed len).a = none := rfl
@[simp] theorem State.acceptStart_b (s : State) (var : BitVec 1) (seed len : Word) : (s.acceptStart var seed len).b = none := rfl
@[simp] theorem State.acceptStart_n (s : State) (var : BitVec 1) (seed len : Word) : (s.acceptStart var seed len).n = some len := rfl
@[simp] theorem State.acceptStart_i (s : State) (var : BitVec 1) (seed len : Word) : (s.acceptStart var seed len).i = none := rfl
@[simp] theorem State.acceptStart_p (s : State) (var : BitVec 1) (seed len : Word) : (s.acceptStart var seed len).p = none := rfl
@[simp] theorem State.acceptStart_result (s : State) (var : BitVec 1) (seed len : Word) : (s.acceptStart var seed len).result = none := rfl
@[simp] theorem State.acceptStart_seedIn (s : State) (var : BitVec 1) (seed len : Word) : (s.acceptStart var seed len).seedIn = s.seedIn := rfl
@[simp] theorem State.acceptStart_lenIn (s : State) (var : BitVec 1) (seed len : Word) : (s.acceptStart var seed len).lenIn = s.lenIn := rfl
@[simp] theorem State.acceptStart_key (s : State) (var : BitVec 1) (seed len : Word) : (s.acceptStart var seed len).key = s.key := rfl
@[simp] theorem State.acceptStart_turns (s : State) (var : BitVec 1) (seed len : Word) : (s.acceptStart var seed len).turns = s.turns := rfl
@[simp] theorem State.acceptStart_reads (s : State) (var : BitVec 1) (seed len : Word) : (s.acceptStart var seed len).reads = s.reads := rfl
@[simp] theorem State.acceptStart_draws (s : State) (var : BitVec 1) (seed len : Word) : (s.acceptStart var seed len).draws = s.draws := rfl
@[simp] theorem State.acceptStart_outputs (s : State) (var : BitVec 1) (seed len : Word) : (s.acceptStart var seed len).outputs = s.outputs := rfl

/-! ### logRead -/

@[simp] theorem State.logRead_phase (s : State) (r : HostReg) (v : Word) : (s.logRead r v).phase = s.phase := rfl
@[simp] theorem State.logRead_var (s : State) (r : HostReg) (v : Word) : (s.logRead r v).var = s.var := rfl
@[simp] theorem State.logRead_perr (s : State) (r : HostReg) (v : Word) : (s.logRead r v).perr = s.perr := rfl
@[simp] theorem State.logRead_s0 (s : State) (r : HostReg) (v : Word) : (s.logRead r v).s0 = s.s0 := rfl
@[simp] theorem State.logRead_s1 (s : State) (r : HostReg) (v : Word) : (s.logRead r v).s1 = s.s1 := rfl
@[simp] theorem State.logRead_s2 (s : State) (r : HostReg) (v : Word) : (s.logRead r v).s2 = s.s2 := rfl
@[simp] theorem State.logRead_a (s : State) (r : HostReg) (v : Word) : (s.logRead r v).a = s.a := rfl
@[simp] theorem State.logRead_b (s : State) (r : HostReg) (v : Word) : (s.logRead r v).b = s.b := rfl
@[simp] theorem State.logRead_n (s : State) (r : HostReg) (v : Word) : (s.logRead r v).n = s.n := rfl
@[simp] theorem State.logRead_i (s : State) (r : HostReg) (v : Word) : (s.logRead r v).i = s.i := rfl
@[simp] theorem State.logRead_p (s : State) (r : HostReg) (v : Word) : (s.logRead r v).p = s.p := rfl
@[simp] theorem State.logRead_result (s : State) (r : HostReg) (v : Word) : (s.logRead r v).result = s.result := rfl
@[simp] theorem State.logRead_seedIn (s : State) (r : HostReg) (v : Word) : (s.logRead r v).seedIn = s.seedIn := rfl
@[simp] theorem State.logRead_lenIn (s : State) (r : HostReg) (v : Word) : (s.logRead r v).lenIn = s.lenIn := rfl
@[simp] theorem State.logRead_key (s : State) (r : HostReg) (v : Word) : (s.logRead r v).key = s.key := rfl
@[simp] theorem State.logRead_turns (s : State) (r : HostReg) (v : Word) : (s.logRead r v).turns = s.turns := rfl
@[simp] theorem State.logRead_reads (s : State) (r : HostReg) (v : Word) : (s.logRead r v).reads = { reg := r, value := v } :: s.reads := rfl
@[simp] theorem State.logRead_draws (s : State) (r : HostReg) (v : Word) : (s.logRead r v).draws = s.draws := rfl
@[simp] theorem State.logRead_outputs (s : State) (r : HostReg) (v : Word) : (s.logRead r v).outputs = s.outputs := rfl

/-! ### readOrFree -/

@[simp] theorem State.readOrFree_phase (s : State) (r : HostReg) (v : Option Word) : (s.readOrFree r v).phase = s.phase := by cases v <;> rfl
@[simp] theorem State.readOrFree_var (s : State) (r : HostReg) (v : Option Word) : (s.readOrFree r v).var = s.var := by cases v <;> rfl
@[simp] theorem State.readOrFree_perr (s : State) (r : HostReg) (v : Option Word) : (s.readOrFree r v).perr = s.perr := by cases v <;> rfl
@[simp] theorem State.readOrFree_s0 (s : State) (r : HostReg) (v : Option Word) : (s.readOrFree r v).s0 = s.s0 := by cases v <;> rfl
@[simp] theorem State.readOrFree_s1 (s : State) (r : HostReg) (v : Option Word) : (s.readOrFree r v).s1 = s.s1 := by cases v <;> rfl
@[simp] theorem State.readOrFree_s2 (s : State) (r : HostReg) (v : Option Word) : (s.readOrFree r v).s2 = s.s2 := by cases v <;> rfl
@[simp] theorem State.readOrFree_a (s : State) (r : HostReg) (v : Option Word) : (s.readOrFree r v).a = s.a := by cases v <;> rfl
@[simp] theorem State.readOrFree_b (s : State) (r : HostReg) (v : Option Word) : (s.readOrFree r v).b = s.b := by cases v <;> rfl
@[simp] theorem State.readOrFree_n (s : State) (r : HostReg) (v : Option Word) : (s.readOrFree r v).n = s.n := by cases v <;> rfl
@[simp] theorem State.readOrFree_i (s : State) (r : HostReg) (v : Option Word) : (s.readOrFree r v).i = s.i := by cases v <;> rfl
@[simp] theorem State.readOrFree_p (s : State) (r : HostReg) (v : Option Word) : (s.readOrFree r v).p = s.p := by cases v <;> rfl
@[simp] theorem State.readOrFree_result (s : State) (r : HostReg) (v : Option Word) : (s.readOrFree r v).result = s.result := by cases v <;> rfl
@[simp] theorem State.readOrFree_seedIn (s : State) (r : HostReg) (v : Option Word) : (s.readOrFree r v).seedIn = s.seedIn := by cases v <;> rfl
@[simp] theorem State.readOrFree_lenIn (s : State) (r : HostReg) (v : Option Word) : (s.readOrFree r v).lenIn = s.lenIn := by cases v <;> rfl
@[simp] theorem State.readOrFree_key (s : State) (r : HostReg) (v : Option Word) : (s.readOrFree r v).key = s.key := by cases v <;> rfl
@[simp] theorem State.readOrFree_turns (s : State) (r : HostReg) (v : Option Word) : (s.readOrFree r v).turns = s.turns := by cases v <;> rfl
@[simp] theorem State.readOrFree_outputs (s : State) (r : HostReg) (v : Option Word) : (s.readOrFree r v).outputs = s.outputs := by cases v <;> rfl

theorem State.readOrFree_some (s : State) (r : HostReg) (w : Word) : s.readOrFree r (some w) = s.logRead r w := rfl

theorem State.readOrFree_none (s : State) (r : HostReg) :
    s.readOrFree r none = { s.logRead r (Config.freeRead s.draws) with draws := s.draws + 1 } := rfl

/-! ### drive -/

@[simp] theorem State.drive_phase (s : State) (vs : List Word) : (s.drive vs).phase = s.phase := rfl
@[simp] theorem State.drive_var (s : State) (vs : List Word) : (s.drive vs).var = s.var := rfl
@[simp] theorem State.drive_perr (s : State) (vs : List Word) : (s.drive vs).perr = s.perr := rfl
@[simp] theorem State.drive_s0 (s : State) (vs : List Word) : (s.drive vs).s0 = s.s0 := rfl
@[simp] theorem State.drive_s1 (s : State) (vs : List Word) : (s.drive vs).s1 = s.s1 := rfl
@[simp] theorem State.drive_s2 (s : State) (vs : List Word) : (s.drive vs).s2 = s.s2 := rfl
@[simp] theorem State.drive_a (s : State) (vs : List Word) : (s.drive vs).a = s.a := rfl
@[simp] theorem State.drive_b (s : State) (vs : List Word) : (s.drive vs).b = s.b := rfl
@[simp] theorem State.drive_n (s : State) (vs : List Word) : (s.drive vs).n = s.n := rfl
@[simp] theorem State.drive_i (s : State) (vs : List Word) : (s.drive vs).i = s.i := rfl
@[simp] theorem State.drive_p (s : State) (vs : List Word) : (s.drive vs).p = s.p := rfl
@[simp] theorem State.drive_result (s : State) (vs : List Word) : (s.drive vs).result = s.result := rfl
@[simp] theorem State.drive_seedIn (s : State) (vs : List Word) : (s.drive vs).seedIn = s.seedIn := rfl
@[simp] theorem State.drive_lenIn (s : State) (vs : List Word) : (s.drive vs).lenIn = s.lenIn := rfl
@[simp] theorem State.drive_key (s : State) (vs : List Word) : (s.drive vs).key = s.key := rfl
@[simp] theorem State.drive_turns (s : State) (vs : List Word) : (s.drive vs).turns = s.turns := rfl
@[simp] theorem State.drive_reads (s : State) (vs : List Word) : (s.drive vs).reads = s.reads := rfl
@[simp] theorem State.drive_draws (s : State) (vs : List Word) : (s.drive vs).draws = s.draws := rfl
@[simp] theorem State.drive_outputs (s : State) (vs : List Word) : (s.drive vs).outputs = vs := rfl

/-! ### resetBlock -/

@[simp] theorem State.resetBlock_phase (s : State) : (s.resetBlock).phase = Phase.idle := rfl
@[simp] theorem State.resetBlock_var (s : State) : (s.resetBlock).var = 0#1 := rfl
@[simp] theorem State.resetBlock_perr (s : State) : (s.resetBlock).perr = false := rfl
@[simp] theorem State.resetBlock_s0 (s : State) : (s.resetBlock).s0 = none := rfl
@[simp] theorem State.resetBlock_s1 (s : State) : (s.resetBlock).s1 = none := rfl
@[simp] theorem State.resetBlock_s2 (s : State) : (s.resetBlock).s2 = none := rfl
@[simp] theorem State.resetBlock_a (s : State) : (s.resetBlock).a = none := rfl
@[simp] theorem State.resetBlock_b (s : State) : (s.resetBlock).b = none := rfl
@[simp] theorem State.resetBlock_n (s : State) : (s.resetBlock).n = none := rfl
@[simp] theorem State.resetBlock_i (s : State) : (s.resetBlock).i = none := rfl
@[simp] theorem State.resetBlock_p (s : State) : (s.resetBlock).p = none := rfl
@[simp] theorem State.resetBlock_result (s : State) : (s.resetBlock).result = none := rfl
@[simp] theorem State.resetBlock_seedIn (s : State) : (s.resetBlock).seedIn = none := rfl
@[simp] theorem State.resetBlock_lenIn (s : State) : (s.resetBlock).lenIn = none := rfl
@[simp] theorem State.resetBlock_key (s : State) : (s.resetBlock).key = [] := rfl
@[simp] theorem State.resetBlock_turns (s : State) : (s.resetBlock).turns = s.turns := rfl
@[simp] theorem State.resetBlock_reads (s : State) : (s.resetBlock).reads = s.reads := rfl
@[simp] theorem State.resetBlock_draws (s : State) : (s.resetBlock).draws = s.draws := rfl
@[simp] theorem State.resetBlock_outputs (s : State) : (s.resetBlock).outputs = s.outputs := rfl

/-! ### The registers by name -/

@[simp] theorem State.reg_s0 (s : State) : s.reg .s0 = s.s0 := rfl
@[simp] theorem State.reg_s1 (s : State) : s.reg .s1 = s.s1 := rfl
@[simp] theorem State.reg_s2 (s : State) : s.reg .s2 = s.s2 := rfl
@[simp] theorem State.reg_a (s : State) : s.reg .a = s.a := rfl
@[simp] theorem State.reg_b (s : State) : s.reg .b = s.b := rfl
@[simp] theorem State.reg_n (s : State) : s.reg .n = s.n := rfl
@[simp] theorem State.reg_i (s : State) : s.reg .i = s.i := rfl
@[simp] theorem State.reg_p (s : State) : s.reg .p = s.p := rfl
@[simp] theorem State.reg_result (s : State) : s.reg .result = s.result := rfl
@[simp] theorem State.reg_seedIn (s : State) : s.reg .seedIn = s.seedIn := rfl
@[simp] theorem State.reg_lenIn (s : State) : s.reg .lenIn = s.lenIn := rfl

end Sys2Proof.Machine
end

