-- ==== Sys2Proof/Laws/Ops.lean ====
section
/-!
SUPPORT. One lemma for each shared operation: everything it can do (spec/00_scope.md R13, R14, spec/20_memory.md R56,
spec/41_byte_readers.md R100 to R102).
-/

namespace Sys2Proof.Machine

/-! ## Continuing with a register or a read -/

/-- If reading a register goes on to a next state, the register held a value. -/
theorem State.withReg_next {s t : State} {r : Reg} {k : Word → Result} :
    s.withReg r k = .next t ↔ ∃ v, s.reg r = some v ∧ k v = .next t := by
  unfold State.withReg
  cases s.reg r <;> simp

theorem State.withReg_some {s : State} {r : Reg} {k : Word → Result} {v : Word} (h : s.reg r = some v) :
    s.withReg r k = k v := by
  simp [State.withReg, h]

theorem State.withReg_none {s : State} {r : Reg} {k : Word → Result} (h : s.reg r = none) :
    s.withReg r k = .fault (.noValue r) := by
  simp [State.withReg, h]

/-- If a read of the key goes on to a next state, the read gave a value. -/
theorem withRead_next {α : Type} {x : Except Fault α} {k : α → Result} {t : State} :
    withRead x k = .next t ↔ ∃ v, x = .ok v ∧ k v = .next t := by
  unfold withRead
  cases x <;> simp

theorem withRead_ok {α : Type} {x : Except Fault α} {k : α → Result} {v : α} (h : x = .ok v) :
    withRead x k = k v := by
  simp [withRead, h]

theorem withRead_error {α : Type} {x : Except Fault α} {k : α → Result} {e : Fault} (h : x = .error e) :
    withRead x k = .fault e := by
  simp [withRead, h]

/-! ## Reading the key -/

/-- The bytes of a window that holds values are these bytes. -/
theorem KeyView.bytes_ok (k : KeyView) :
    ∀ {count o : Nat}, (∀ j, j < count → (k.byte (o + j)).isSome = true) → ∃ vs, k.bytes o count = .ok vs
  | 0, _, _ => ⟨[], rfl⟩
  | count + 1, o, h => by
    obtain ⟨v, hv⟩ := Option.isSome_iff_exists.mp (h 0 (by omega))
    obtain ⟨vs, hvs⟩ := KeyView.bytes_ok k (count := count) (o := o + 1)
      (fun j hj => by rw [show o + 1 + j = o + (j + 1) by omega]; exact h (j + 1) (by omega))
    exact ⟨v :: vs, by simp [KeyView.bytes, (show k.byte o = some v from hv), hvs]⟩

/-- A read window inside a key whose bytes hold values gives bytes (R56). -/
theorem memRead_ok {k : KeyView} {o count : Nat} (hb : o + count ≤ k.len)
    (h : ∀ j, j < k.len → (k.byte j).isSome = true) : ∃ vs, memRead k o count = .ok vs := by
  obtain ⟨vs, hvs⟩ := k.bytes_ok (count := count) (o := o) (fun j hj => h (o + j) (by omega))
  exact ⟨vs, by simp [memRead, hb, hvs]⟩

/-- A read window that ends past the key is a model fault (R56). -/
theorem memRead_outside {k : KeyView} {o count : Nat} (hb : k.len < o + count) :
    memRead k o count = .error (.keyOutOfBounds o count k.len) := by
  simp [memRead, Nat.not_le.mpr hb]

theorem read8_ok {k : KeyView} {o : Nat} (hb : o + 8 ≤ k.len)
    (h : ∀ j, j < k.len → (k.byte j).isSome = true) : ∃ w, read8 k o = .ok w := by
  obtain ⟨vs, hvs⟩ := memRead_ok hb h
  exact ⟨littleEndian vs, by simp [read8, hvs]⟩

theorem read4_ok {k : KeyView} {o : Nat} (hb : o + 4 ≤ k.len)
    (h : ∀ j, j < k.len → (k.byte j).isSome = true) : ∃ w, read4 k o = .ok w := by
  obtain ⟨vs, hvs⟩ := memRead_ok hb h
  exact ⟨littleEndian vs, by simp [read4, hvs]⟩

theorem read1_ok {k : KeyView} {o : Nat} (hb : o + 1 ≤ k.len)
    (h : ∀ j, j < k.len → (k.byte j).isSome = true) : ∃ w, read1 k o = .ok w := by
  obtain ⟨vs, hvs⟩ := memRead_ok hb h
  exact ⟨littleEndian vs, by simp [read1, hvs]⟩

theorem read3_ok {k : KeyView} {len : Word} (h1 : 1 ≤ len.toNat) (h3 : len.toNat ≤ 3) (hk : len.toNat ≤ k.len)
    (h : ∀ j, j < k.len → (k.byte j).isSome = true) : ∃ w, read3 k len = .ok w := by
  have hs : (len >>> 1).toNat + 1 ≤ k.len := by
    rw [BitVec.toNat_ushiftRight, Nat.shiftRight_one]; omega
  have hl : (len - 1).toNat + 1 ≤ k.len := by
    have : (len - 1).toNat = len.toNat - 1 := by bv_omega
    omega
  obtain ⟨b0, e0⟩ := read1_ok (k := k) (o := 0) (by omega) h
  obtain ⟨b1, e1⟩ := read1_ok hs h
  obtain ⟨b2, e2⟩ := read1_ok hl h
  exact ⟨(b0 <<< 16) ||| (b1 <<< 8) ||| b2, by simp only [read3, h1, h3, e0, e1, e2, and_self, if_true]⟩

theorem lane_ok {k : KeyView} {high low : Word} (hh : high.toNat + 4 ≤ k.len) (hl : low.toNat + 4 ≤ k.len)
    (h : ∀ j, j < k.len → (k.byte j).isSome = true) : ∃ w, lane k high low = .ok w := by
  obtain ⟨x, ex⟩ := read4_ok hh h
  obtain ⟨y, ey⟩ := read4_ok hl h
  exact ⟨(x <<< 32) ||| y, by simp only [lane, ex, ey]⟩

theorem subBlock_ok {k : KeyView} {o : Word} (secret acc : Word) (ho : o.toNat + 16 ≤ k.len) (hk : k.len < 2 ^ 64)
    (h : ∀ j, j < k.len → (k.byte j).isSome = true) : ∃ w, subBlock k o secret acc = .ok w := by
  have e8 : (o + 8).toNat = o.toNat + 8 := by bv_omega
  obtain ⟨x, ex⟩ := read8_ok (k := k) (o := o.toNat) (by omega) h
  obtain ⟨y, ey⟩ := read8_ok (k := k) (o := (o + 8).toNat) (by omega) h
  exact ⟨mix (x ^^^ secret) (y ^^^ acc), by simp only [subBlock, ex, ey]⟩

/-! ## What the readers give -/

/-- The bits of a little-endian assembly (R54). -/
theorem littleEndian_getLsbD (v : Byte) (vs : List Byte) (i : Nat) :
    (littleEndian (v :: vs)).getLsbD i =
      if i < 8 then v.getLsbD i else (decide (i < 64) && (littleEndian vs).getLsbD (i - 8)) := by
  simp only [littleEndian, BitVec.getLsbD_or, BitVec.getLsbD_setWidth, BitVec.getLsbD_shiftLeft]
  split
  · rename_i h
    simp [h, show i < 64 by omega]
  · rename_i h
    simp [h, BitVec.getLsbD_of_ge v i (by omega)]

theorem littleEndian_nil : littleEndian [] = 0 := rfl

/-- One byte assembled is that byte, zero-extended. -/
theorem littleEndian_one (c0 : Byte) : littleEndian [c0] = c0.setWidth 64 := by
  simp [littleEndian]

/-- Four bytes assembled: the lowest offset least significant, the upper half zero (R101). -/
theorem littleEndian_four (c0 c1 c2 c3 : Byte) :
    littleEndian [c0, c1, c2, c3] = (0#32 ++ c3 ++ c2 ++ c1 ++ c0 : BitVec 64) := by
  apply BitVec.eq_of_getLsbD_eq
  intro i hi
  have hd : ∀ j, decide (i - j < 64) = true := fun j => by simp; omega
  simp only [littleEndian_getLsbD, BitVec.getLsbD_append, Nat.sub_sub, littleEndian_nil, hi, hd, decide_true,
    Bool.true_and]
  split_ifs <;> rfl

/-- Eight bytes assembled: the lowest offset least significant (R102). -/
theorem littleEndian_eight (c0 c1 c2 c3 c4 c5 c6 c7 : Byte) :
    littleEndian [c0, c1, c2, c3, c4, c5, c6, c7] =
      (c7 ++ c6 ++ c5 ++ c4 ++ c3 ++ c2 ++ c1 ++ c0 : BitVec 64) := by
  apply BitVec.eq_of_getLsbD_eq
  intro i hi
  have hd : ∀ j, decide (i - j < 64) = true := fun j => by simp; omega
  simp only [littleEndian_getLsbD, BitVec.getLsbD_append, Nat.sub_sub, littleEndian_nil, hi, hd, decide_true,
    Bool.true_and]
  split_ifs <;> first | rfl | omega

/-- A window of the key is a list of its bytes, each of which held a value. -/
theorem KeyView.bytes_spec (k : KeyView) :
    ∀ {count o : Nat} {vs : List Byte}, k.bytes o count = .ok vs →
      vs.length = count ∧ ∀ j, j < count → k.byte (o + j) = vs[j]?
  | 0, _, vs, h => by
    simp only [KeyView.bytes, Except.ok.injEq] at h
    subst h
    exact ⟨rfl, fun j hj => absurd hj (by omega)⟩
  | count + 1, o, vs, h => by
    simp only [KeyView.bytes] at h
    split at h
    · cases h
    · rename_i v hv
      split at h
      · cases h
      · rename_i ws hws
        cases h
        obtain ⟨hl, hb⟩ := KeyView.bytes_spec k hws
        refine ⟨by simp [hl], fun j hj => ?_⟩
        cases j with
        | zero => simpa using hv
        | succ j => simpa [Nat.add_assoc, Nat.add_comm 1] using hb j (by omega)

/-- What a window of given bytes gives (R56). -/
theorem memRead_bytes {k : KeyView} {o : Nat} :
    ∀ {vs : List Byte}, o + vs.length ≤ k.len → (∀ j, j < vs.length → k.byte (o + j) = vs[j]?) →
      memRead k o vs.length = .ok vs := by
  intro vs hb h
  have : ∀ (vs : List Byte) (o : Nat), (∀ j, j < vs.length → k.byte (o + j) = vs[j]?) →
      k.bytes o vs.length = .ok vs := by
    intro vs
    induction vs with
    | nil => intro o _; rfl
    | cons v vs ih =>
      intro o h
      have h0 : k.byte o = some v := by simpa using h 0 (by simp)
      have h1 := ih (o + 1) fun j hj => by
        have := h (j + 1) (by simpa using hj)
        simpa [Nat.add_assoc, Nat.add_comm 1] using this
      simp [KeyView.bytes, h0, h1]
  simp [memRead, hb, this vs o h]

/-- `MemRead(o, 1)[0]` of a byte that holds a value. -/
theorem read1_byte {k : KeyView} {o : Nat} {v : Byte} (hb : o + 1 ≤ k.len) (h : k.byte o = some v) :
    read1 k o = .ok (v.setWidth 64) := by
  simp [read1, memRead, hb, KeyView.bytes, h, littleEndian_one]

/-! ## What a read that gives a value has read: its window ends inside the key and every byte of it holds a value -/

theorem memRead_window {k : KeyView} {o count : Nat} {vs : List Byte} (h : memRead k o count = .ok vs) :
    o + count ≤ k.len ∧ ∀ j, j < count → (k.byte (o + j)).isSome = true := by
  unfold memRead at h
  split at h
  · rename_i hb
    obtain ⟨hlen, hv⟩ := k.bytes_spec h
    exact ⟨hb, fun j hj => by rw [hv j hj, List.getElem?_eq_getElem (by omega)]; rfl⟩
  · cases h

theorem read1_window {k : KeyView} {o : Nat} {w : Word} (h : read1 k o = .ok w) : (k.byte o).isSome = true := by
  unfold read1 at h
  split at h
  · rename_i vs hvs
    exact (memRead_window hvs).2 0 (by omega)
  · cases h

theorem read4_window {k : KeyView} {o : Nat} {w : Word} (h : read4 k o = .ok w) :
    o + 4 ≤ k.len ∧ ∀ j, j < 4 → (k.byte (o + j)).isSome = true := by
  unfold read4 at h
  split at h
  · rename_i vs hvs
    exact memRead_window hvs
  · cases h

theorem read8_window {k : KeyView} {o : Nat} {w : Word} (h : read8 k o = .ok w) :
    o + 8 ≤ k.len ∧ ∀ j, j < 8 → (k.byte (o + j)).isSome = true := by
  unfold read8 at h
  split at h
  · rename_i vs hvs
    exact memRead_window hvs
  · cases h

theorem read3_window {k : KeyView} {len w : Word} (h : read3 k len = .ok w) :
    (k.byte 0).isSome = true ∧ (k.byte (len.toNat / 2)).isSome = true ∧ (k.byte (len.toNat - 1)).isSome = true := by
  unfold read3 at h
  split at h
  · have middle : (len >>> 1).toNat = len.toNat / 2 := by
      simp [BitVec.toNat_ushiftRight, Nat.shiftRight_eq_div_pow]
    have last : (len - 1).toNat = len.toNat - 1 := by bv_omega
    cases h0 : read1 k 0 <;> rw [h0] at h <;> simp only [reduceCtorEq] at h
    cases h1 : read1 k (len >>> 1).toNat <;> rw [h1] at h <;> simp only [reduceCtorEq] at h
    cases h2 : read1 k (len - 1).toNat <;> rw [h2] at h <;> simp only [reduceCtorEq] at h
    exact ⟨read1_window h0, middle ▸ read1_window h1, last ▸ read1_window h2⟩
  · cases h

theorem lane_windows {k : KeyView} {high low w : Word} (h : lane k high low = .ok w) :
    (∃ x, read4 k high.toNat = .ok x) ∧ ∃ y, read4 k low.toNat = .ok y := by
  unfold lane at h
  split at h
  · cases h
  · rename_i x hx
    split at h
    · cases h
    · rename_i y hy
      exact ⟨⟨x, hx⟩, ⟨y, hy⟩⟩

theorem subBlock_window {k : KeyView} {o secret acc w : Word} (hk : k.len < 2 ^ 64)
    (h : subBlock k o secret acc = .ok w) :
    o.toNat + 16 ≤ k.len ∧ ∀ j, j < 16 → (k.byte (o.toNat + j)).isSome = true := by
  unfold subBlock at h
  split at h
  · cases h
  · rename_i x hx
    split at h
    · cases h
    · rename_i y hy
      have low := read8_window hx
      have high := read8_window hy
      rw [show (o + 8).toNat = o.toNat + 8 by bv_omega] at high
      refine ⟨by omega, fun j hj => ?_⟩
      by_cases hj8 : j < 8
      · exact low.2 j hj8
      · have hb := high.2 (j - 8) (by omega)
        rwa [show o.toNat + 8 + (j - 8) = o.toNat + j by omega] at hb

/-! ## The functions -/

/-- The two halves are the exact product (R90). -/
theorem mum_product (a b : Word) : (mum a b).2.toNat * 2 ^ 64 + (mum a b).1.toNat = a.toNat * b.toNat := by
  have h : a.toNat * b.toNat < 2 ^ 64 * 2 ^ 64 := Nat.mul_lt_mul'' a.isLt b.isLt
  have h2 : a.toNat * b.toNat / 2 ^ 64 < 2 ^ 64 := Nat.div_lt_of_lt_mul h
  have e2 : (mum a b).2.toNat = a.toNat * b.toNat / 2 ^ 64 := by
    simp only [mum, BitVec.toNat_ofNat]; exact Nat.mod_eq_of_lt h2
  have e1 : (mum a b).1.toNat = a.toNat * b.toNat % 2 ^ 64 := by simp only [mum, BitVec.toNat_ofNat]
  rw [e1, e2, Nat.div_add_mod']

/-- `class_of` by range (R114). -/
theorem classOf_eq (n : Word) :
    classOf n = if n.toNat = 0 then .c0 else if n.toNat < 4 then .c3 else if n.toNat ≤ 16 then .c4 else .clong := rfl

end Sys2Proof.Machine
end

