-- ==== Sys2Proof/Laws/Exec.lean ====
section
/-!
SUPPORT. For each meaning, everything it can do when it answers a next state (spec/42, spec/43, spec/44).
-/

namespace Sys2Proof.Machine

theorem execRead3_next {len : Word} {s t : State} : execRead3 len s = .next t ↔
    ∃ n v, s.n = some n ∧ read3 (s.keyView n) len = .ok v ∧ t = s.drive [v] := by
  simp only [execRead3, State.withReg_next, withRead_next, State.reg_n, Host.Outcome.next.injEq]
  constructor
  · rintro ⟨n, hn, v, hv, rfl⟩
    exact ⟨n, v, hn, hv, rfl⟩
  · rintro ⟨n, v, hn, hv, rfl⟩
    exact ⟨n, hn, v, hv, rfl⟩

theorem execRead4_next {o : Word} {s t : State} : execRead4 o s = .next t ↔
    ∃ n v, s.n = some n ∧ read4 (s.keyView n) o.toNat = .ok v ∧ t = s.drive [v] := by
  simp only [execRead4, State.withReg_next, withRead_next, State.reg_n, Host.Outcome.next.injEq]
  constructor
  · rintro ⟨n, hn, v, hv, rfl⟩
    exact ⟨n, v, hn, hv, rfl⟩
  · rintro ⟨n, v, hn, hv, rfl⟩
    exact ⟨n, hn, v, hv, rfl⟩

theorem execRead8_next {o : Word} {s t : State} : execRead8 o s = .next t ↔
    ∃ n v, s.n = some n ∧ read8 (s.keyView n) o.toNat = .ok v ∧ t = s.drive [v] := by
  simp only [execRead8, State.withReg_next, withRead_next, State.reg_n, Host.Outcome.next.injEq]
  constructor
  · rintro ⟨n, hn, v, hv, rfl⟩
    exact ⟨n, v, hn, hv, rfl⟩
  · rintro ⟨n, v, hn, hv, rfl⟩
    exact ⟨n, hn, v, hv, rfl⟩

/-- An answer that is a next state or a fault: no operation is ever refused. -/
def NextOrFault (r : Result) : Prop := (∃ t, r = .next t) ∨ ∃ e, r = .fault e

theorem nextOrFault_next (t : State) : NextOrFault (.next t) := .inl ⟨t, rfl⟩

theorem nextOrFault_withReg {s : State} {r : Reg} {k : Word → Result} (h : ∀ v, NextOrFault (k v)) :
    NextOrFault (s.withReg r k) := by
  unfold State.withReg
  split
  · exact h _
  · exact .inr ⟨_, rfl⟩

theorem nextOrFault_withRead {α : Type} {x : Except Fault α} {k : α → Result} (h : ∀ v, NextOrFault (k v)) :
    NextOrFault (withRead x k) := by
  unfold withRead
  split
  · exact h _
  · exact .inr ⟨_, rfl⟩

/-- `START` is rejected or accepted; it never stops (R112). -/
theorem execStart_cases (var : BitVec 1) (s : State) :
    execStart var s = .next s.rejectCommand ∨
    ∃ seed len, (s.phase = Phase.idle ∨ s.phase = Phase.done) ∧ s.seedIn = some seed ∧ s.lenIn = some len ∧
      execStart var s = .next (s.acceptStart var seed len) := by
  unfold execStart
  split
  · rename_i hp
    cases hs : s.seedIn with
    | none => exact .inl rfl
    | some seed =>
      cases hl : s.lenIn with
      | none => exact .inl rfl
      | some len => exact .inr ⟨seed, len, hp, rfl, rfl, rfl⟩
  · exact .inl rfl

theorem execSeedmix_next {s t : State} : execSeedmix s = .next t ↔
    ∃ s0, s.s0 = some s0 ∧ t = { s with s0 := some (deriveSeed s.variant s0), phase := Phase.dispatch } := by
  simp only [execSeedmix, State.withReg_next, State.reg_s0, Host.Outcome.next.injEq, eq_comm (b := t)]

theorem execDispatch_next {s t : State} : execDispatch s = .next t ↔
    ∃ n, s.n = some n ∧ t = { s with phase := classPhase (classOf n) } := by
  simp only [execDispatch, State.withReg_next, State.reg_n, Host.Outcome.next.injEq, eq_comm (b := t)]

theorem execLd0_next {s t : State} : execLd0 s = .next t ↔
    ∃ s0, s.s0 = some s0 ∧ t = { s with a := some s.variant.k1, b := some s0, phase := Phase.final } := by
  simp only [execLd0, State.withReg_next, State.reg_s0, Host.Outcome.next.injEq, eq_comm (b := t)]

theorem execLd3_next {s t : State} : execLd3 s = .next t ↔
    ∃ s0, s.s0 = some s0 ∧ ∃ n, s.n = some n ∧ ∃ x, read3 (s.keyView n) n = .ok x ∧
      t = { s with a := some (x ^^^ s.variant.k1), b := some s0, phase := Phase.final } := by
  simp only [execLd3, State.withReg_next, withRead_next, State.reg_s0, State.reg_n, Host.Outcome.next.injEq,
    eq_comm (b := t)]

theorem execLd4_next {s t : State} : execLd4 s = .next t ↔
    ∃ s0, s.s0 = some s0 ∧ ∃ n, s.n = some n ∧ ∃ w, windowsAt s.variant n = .ok w ∧
      ∃ x, lane (s.keyView n) w.ah w.al = .ok x ∧ ∃ y, lane (s.keyView n) w.bh w.bl = .ok y ∧
      t = { s with a := some (x ^^^ s.variant.k1), b := some (y ^^^ s0), phase := Phase.final } := by
  simp only [execLd4, State.withReg_next, withRead_next, State.reg_s0, State.reg_n, Host.Outcome.next.injEq,
    eq_comm (b := t)]

theorem execLongent_next {s t : State} : execLongent s = .next t ↔
    ∃ n, s.n = some n ∧
      if cond48 s.variant n.toNat then
        ∃ s0, s.s0 = some s0 ∧
          t = { s with i := some n, p := some 0, s1 := some s0, s2 := some s0, phase := Phase.blk48 }
      else t = { s with i := some n, p := some 0, phase := Phase.blk16 } := by
  simp only [execLongent, State.withReg_next, State.reg_n]
  refine exists_congr fun n => and_congr_right fun _ => ?_
  split <;> simp only [State.withReg_next, State.reg_s0, Host.Outcome.next.injEq, eq_comm (b := t)]

theorem execBlk48_next {s t : State} : execBlk48 s = .next t ↔
    ∃ s0, s.s0 = some s0 ∧ ∃ s1, s.s1 = some s1 ∧ ∃ s2, s.s2 = some s2 ∧ ∃ i, s.i = some i ∧
    ∃ p, s.p = some p ∧ ∃ n, s.n = some n ∧
      ∃ t0, subBlock (s.keyView n) p s.variant.k1 s0 = .ok t0 ∧
      ∃ t1, subBlock (s.keyView n) (p + 16) s.variant.k2 s1 = .ok t1 ∧
      ∃ t2, subBlock (s.keyView n) (p + 32) s.variant.k3 s2 = .ok t2 ∧
      t = { s with
        s0 := some t0, s1 := some t1, s2 := some t2, p := some (p + 48), i := some (i - 48)
        phase := if cond48 s.variant (i - 48).toNat then Phase.blk48 else Phase.fold3 } := by
  simp only [execBlk48, State.withReg_next, withRead_next, State.reg_s0, State.reg_s1, State.reg_s2, State.reg_i,
    State.reg_p, State.reg_n, Host.Outcome.next.injEq, eq_comm (b := t)]

theorem execFold3_next {s t : State} : execFold3 s = .next t ↔
    ∃ s0, s.s0 = some s0 ∧ ∃ s1, s.s1 = some s1 ∧ ∃ s2, s.s2 = some s2 ∧ ∃ i, s.i = some i ∧
      t = { s with
        s0 := some (s0 ^^^ s1 ^^^ s2)
        phase := if 16 < i.toNat then Phase.blk16 else Phase.tail } := by
  simp only [execFold3, State.withReg_next, State.reg_s0, State.reg_s1, State.reg_s2, State.reg_i,
    Host.Outcome.next.injEq, eq_comm (b := t)]

theorem execBlk16_next {s t : State} : execBlk16 s = .next t ↔
    ∃ s0, s.s0 = some s0 ∧ ∃ i, s.i = some i ∧ ∃ p, s.p = some p ∧ ∃ n, s.n = some n ∧
      ∃ t0, subBlock (s.keyView n) p s.variant.k1 s0 = .ok t0 ∧
      t = { s with
        s0 := some t0, p := some (p + 16), i := some (i - 16)
        phase := if 16 < (i - 16).toNat then Phase.blk16 else Phase.tail } := by
  simp only [execBlk16, State.withReg_next, withRead_next, State.reg_s0, State.reg_i, State.reg_p, State.reg_n,
    Host.Outcome.next.injEq, eq_comm (b := t)]

theorem execTail_next {s t : State} : execTail s = .next t ↔
    ∃ s0, s.s0 = some s0 ∧ ∃ n, s.n = some n ∧
      ∃ x, read8 (s.keyView n) (n - 16).toNat = .ok x ∧ ∃ y, read8 (s.keyView n) (n - 8).toNat = .ok y ∧
      t = { s with a := some (x ^^^ s.variant.k1), b := some (y ^^^ s0), phase := Phase.final } := by
  simp only [execTail, State.withReg_next, withRead_next, State.reg_s0, State.reg_n, Host.Outcome.next.injEq,
    eq_comm (b := t)]

theorem execFinal_next {s t : State} : execFinal s = .next t ↔
    ∃ a, s.a = some a ∧ ∃ b, s.b = some b ∧ ∃ n, s.n = some n ∧
      t = { s with
        a := some (mum a b).1, b := some (mum a b).2
        result := some (finalize s.variant a b n)
        phase := Phase.done } := by
  simp only [execFinal, State.withReg_next, State.reg_a, State.reg_b, State.reg_n, Host.Outcome.next.injEq,
    eq_comm (b := t)]

/-- No operation is refused in any state. -/
theorem exec_nextOrFault (i : Instr) (s : State) : NextOrFault (exec i s) := by
  cases i
  case start var => rcases execStart_cases var s with h | ⟨_, _, _, _, _, h⟩ <;> exact .inl ⟨_, h⟩
  case longent =>
    refine nextOrFault_withReg fun _ => ?_
    split
    · exact nextOrFault_withReg fun _ => nextOrFault_next _
    · exact nextOrFault_next _
  all_goals
    repeat first
      | exact nextOrFault_next _
      | refine nextOrFault_withReg fun _ => ?_
      | refine nextOrFault_withRead fun _ => ?_

end Sys2Proof.Machine
end

