-- ==== Sys2Proof/Laws/Memory.lean ====
section
/-!
SUPPORT. The laws of the key space: read after write, and that every memory operation keeps the canonical form
(spec/20_memory.md R50, spec/45_call_sequence.md R170).
-/

namespace Sys2Proof.Machine

@[simp] theorem Memory.read_nil (o : Nat) : Memory.read [] o = none := rfl

@[simp] theorem Memory.wf_nil : Memory.wf [] = true := rfl

theorem Memory.wfFrom_cons {low a : Nat} {v : Byte} {m : Memory} :
    Memory.wfFrom low ((a, v) :: m) = true ↔ low ≤ a ∧ a < 2 ^ 64 ∧ Memory.wfFrom (a + 1) m = true := by
  simp [Memory.wfFrom, and_assoc]

theorem Memory.wfFrom_mono {low low' : Nat} (h : low' ≤ low) :
    ∀ {m : Memory}, Memory.wfFrom low m = true → Memory.wfFrom low' m = true
  | [], _ => rfl
  | (a, v) :: m, hm => by
    rw [Memory.wfFrom_cons] at hm ⊢
    exact ⟨h.trans hm.1, hm.2⟩

theorem Memory.read_write_same (o : Nat) (v : Byte) : ∀ m : Memory, (m.write o v).read o = some v
  | [] => by simp [Memory.write, Memory.read]
  | (a, w) :: m => by
    unfold Memory.write
    split
    · simp [Memory.read]
    · split
      · simp [Memory.read]
      · rename_i h1 h2
        simp [Memory.read, h1, h2, Memory.read_write_same o v m]

theorem Memory.read_write_other {o o' : Nat} (v : Byte) (h : o' ≠ o) :
    ∀ {low : Nat} {m : Memory}, Memory.wfFrom low m = true → (m.write o v).read o' = m.read o'
  | _, [], _ => by simp [Memory.write, Memory.read, h]
  | low, (a, w) :: m, hm => by
    have hm' := (Memory.wfFrom_cons.mp hm).2.2
    unfold Memory.write
    split
    · rename_i h1
      by_cases h2 : o' < o
      · have : o' ≠ a ∧ o' < a := by omega
        simp [Memory.read, h, h2, this]
      · simp [Memory.read, h, h2]
    · split
      · rename_i h1 h2
        subst h2
        by_cases h3 : o' < o
        · simp [Memory.read, h, h3]
        · simp [Memory.read, h]
      · have ih := Memory.read_write_other v h (low := a + 1) hm'
        simp [Memory.read, ih]

theorem Memory.wfFrom_write {o : Nat} (v : Byte) (ho : o < 2 ^ 64) :
    ∀ {low : Nat} {m : Memory}, low ≤ o → Memory.wfFrom low m = true → Memory.wfFrom low (m.write o v) = true
  | low, [], hl, _ => by simp [Memory.write, Memory.wfFrom]; omega
  | low, (a, w) :: m, hl, hm => by
    obtain ⟨h1, h2, h3⟩ := Memory.wfFrom_cons.mp hm
    unfold Memory.write
    split
    · rw [Memory.wfFrom_cons, Memory.wfFrom_cons]
      exact ⟨hl, ho, by omega, h2, h3⟩
    · split
      · rename_i h4 h5
        subst h5
        exact Memory.wfFrom_cons.mpr ⟨hl, ho, h3⟩
      · rw [Memory.wfFrom_cons]
        exact ⟨h1, h2, Memory.wfFrom_write v ho (by omega) h3⟩

/-- A write keeps the canonical form (R50: the offset is an unsigned 64-bit integer). -/
theorem Memory.wf_write {m : Memory} {o : Nat} {v : Byte} (ho : o < 2 ^ 64) (hm : m.wf = true) :
    (m.write o v).wf = true :=
  Memory.wfFrom_write v ho (Nat.zero_le o) hm

theorem Memory.wf_writeBytes :
    ∀ {vs : List Byte} {m : Memory} {o : Nat}, o + vs.length ≤ 2 ^ 64 → m.wf = true →
      (m.writeBytes o vs).wf = true
  | [], _, _, _, hm => hm
  | v :: vs, m, o, ho, hm => by
    rw [List.length_cons] at ho
    rw [Memory.writeBytes]
    exact Memory.wf_writeBytes (by omega) (Memory.wf_write (by omega) hm)

/-- An offset outside the written bytes reads as before. -/
theorem Memory.read_writeBytes_other {o' : Nat} :
    ∀ {vs : List Byte} {m : Memory} {o : Nat}, o + vs.length ≤ 2 ^ 64 → m.wf = true →
      (o' < o ∨ o + vs.length ≤ o') → (m.writeBytes o vs).read o' = m.read o'
  | [], _, _, _, _, _ => rfl
  | v :: vs, m, o, ho, hm, h => by
    rw [List.length_cons] at ho h
    rw [Memory.writeBytes, Memory.read_writeBytes_other (by omega) (Memory.wf_write (by omega) hm) (by omega)]
    exact Memory.read_write_other v (by omega) (low := 0) hm

/-- A written offset reads as the byte written there. -/
theorem Memory.read_writeBytes_same {j : Nat} :
    ∀ {vs : List Byte} {m : Memory} {o : Nat}, o + vs.length ≤ 2 ^ 64 → m.wf = true → j < vs.length →
      (m.writeBytes o vs).read (o + j) = vs[j]?
  | [], _, _, _, _, h => absurd h (by simp)
  | v :: vs, m, o, ho, hm, h => by
    rw [List.length_cons] at ho h
    have hw : (m.write o v).wf = true := Memory.wf_write (by omega) hm
    rw [Memory.writeBytes]
    cases j with
    | zero =>
      rw [Memory.read_writeBytes_other (by omega) hw (by omega), Nat.add_zero, Memory.read_write_same]
      rfl
    | succ j =>
      have := Memory.read_writeBytes_same (j := j) (vs := vs) (o := o + 1) (by omega) hw (by omega)
      rw [show o + (j + 1) = o + 1 + j by omega, this]
      rfl

theorem Memory.wf_fillZero :
    ∀ {count : Nat} {m : Memory} {o : Nat}, o + count ≤ 2 ^ 64 → m.wf = true → (m.fillZero o count).wf = true
  | 0, _, _, _, hm => hm
  | count + 1, m, o, ho, hm => by
    unfold Memory.fillZero
    split
    · exact Memory.wf_fillZero (by omega) hm
    · exact Memory.wf_fillZero (by omega) (Memory.wf_write (by omega) hm)

end Sys2Proof.Machine
end

