-- ==== Sys2Proof/Laws/PerInstr.lean ====
section
/-!
SUPPORT. The family stated per instruction: the decoder reads an operation's own code back, every operand at every value
(spec/30_encoding.md R72, R73, R75).
-/

namespace Sys2Proof.Laws.RoundTrip

/-- Decoding the code of an operation gives that operation. -/
def Statement (i : Instr) : Prop := decode (encode i) = .instr i

theorem mum (a b : Word) : Statement (.mum a b) := rfl

theorem mix (a b : Word) : Statement (.mix a b) := rfl

theorem read3 (len : Word) : Statement (.read3 len) := rfl

theorem read4 (offset : Word) : Statement (.read4 offset) := rfl

theorem read8 (offset : Word) : Statement (.read8 offset) := rfl

theorem seedmix : Statement .seedmix := rfl

theorem dispatch : Statement .dispatch := rfl

theorem ld0 : Statement .ld0 := rfl

theorem ld3 : Statement .ld3 := rfl

theorem ld4 : Statement .ld4 := rfl

theorem longent : Statement .longent := rfl

theorem blk48 : Statement .blk48 := rfl

theorem fold3 : Statement .fold3 := rfl

theorem blk16 : Statement .blk16 := rfl

theorem tail : Statement .tail := rfl

theorem final : Statement .final := rfl

theorem nop (v : BitVec 1) : Statement (.nop v) := by
  revert v; unfold Statement; decide

theorem start (var : BitVec 1) : Statement (.start var) := by
  revert var; unfold Statement; decide

end Sys2Proof.Laws.RoundTrip
end

