-- ==== Sys2Proof/Laws/Step.lean ====
section
/-!
SUPPORT. Everything a step can do, said once: the sequencer's turn and the host's (spec/45_call_sequence.md R165, R170).
-/

namespace Sys2Proof.Machine

/-- A phase code selects only the operation it is the code of (R72). -/
theorem decode_phase_code {p : BitVec 4} {i : Instr} (h : decode (.phase p) = .instr i) : encode i = .phase p := by
  have every : ∀ p : BitVec 4,
      (match decode (.phase p) with
        | .instr i => decide (encode i = .phase p)
        | .rejected _ => true) = true := by decide
  have hp := every p
  rw [h] at hp
  exact of_decide_eq_true hp

/-- While the block is busy, `PHASE` selects an operation (R32, R72). -/
theorem decode_phase_of_busy {s : State} (h : s.busy = true) : ∃ i, decode (.phase s.phase) = .instr i := by
  have every : ∀ p : BitVec 4, decide (0x1#4 ≤ p ∧ p ≤ 0xB#4) = true →
      (match decode (.phase p) with
        | .instr _ => true
        | .rejected _ => false) = true := by decide
  have hs := every s.phase h
  cases hd : decode (.phase s.phase) with
  | instr i => exact ⟨i, rfl⟩
  | rejected why => simp [hd] at hs

/-- `IDLE` and `DONE` are the codes in which the sequencer has no step (R164). -/
theorem decode_phase_noOperation {p : BitVec 4} :
    decode (.phase p) = .rejected .noOperation ↔ p = Phase.idle ∨ p = Phase.done := by
  revert p; decide

/-- A sequencer's turn that answers a next state: idle or done and nothing changed, or the phase's operation. -/
theorem sequencerStep_next {s t : State} (h : sequencerStep s = .next t) :
    ((s.phase = Phase.idle ∨ s.phase = Phase.done) ∧ t = s) ∨
    ∃ i, decode (.phase s.phase) = .instr i ∧ exec i s = .next t := by
  unfold sequencerStep at h
  split at h
  · rename_i i hi
    exact .inr ⟨i, hi, h⟩
  · rename_i hi
    cases h
    exact .inl ⟨decode_phase_noOperation.mp hi, rfl⟩
  · cases h

/-- A write to `CMD` never stops: no change, a rejection or an accepted `START` (R112). -/
theorem writeCommand_cases (w : BitVec 8) (s : State) :
    writeCommand w s = .next s ∨ writeCommand w s = .next s.rejectCommand ∨
    ∃ var seed len, (s.phase = Phase.idle ∨ s.phase = Phase.done) ∧ s.seedIn = some seed ∧ s.lenIn = some len ∧
      writeCommand w s = .next (s.acceptStart var seed len) := by
  unfold writeCommand
  simp only [decode, decodeCommand]
  split
  · rename_i i hi
    split_ifs at hi
    · cases hi; exact .inl rfl
    · cases hi
      rcases execStart_cases (w.extractLsb' 4 1) s with h | ⟨seed, len, h⟩
      · exact .inr (.inl h)
      · exact .inr (.inr ⟨_, seed, len, h⟩)
  · exact .inr (.inl rfl)

/-- A host write of key bytes that answers a next state wrote them inside the offset space, and not into a running
call's key (R55, R170). -/
theorem writeKey_next {o : Word} {bytes : List Byte} {s t : State} (h : writeKey o bytes s = .next t) :
    o.toNat + bytes.length ≤ 2 ^ 64 ∧ t = { s with key := s.key.writeBytes o.toNat bytes } ∧
    (s.busy = true → bytes ≠ [] → ∀ n, s.n = some n → n.toNat ≤ o.toNat) := by
  unfold writeKey at h
  split at h
  · cases h
  · rename_i hb
    split at h
    · cases h
    · rename_i hc
      cases h
      refine ⟨by omega, rfl, fun h1 h2 n hn => ?_⟩
      by_contra hlt
      exact hc (by simp [h1, h2, hn]; omega)

/-- What the host's reads leave: everything but what has been read and the counter of free values. -/
theorem readRegister_frame (r : HostReg) (s : State) :
    readRegister r s = { s with reads := (readRegister r s).reads, draws := (readRegister r s).draws } := by
  cases r
  · rfl
  · rfl
  · unfold readRegister; simp only; cases h : s.seedIn <;> simp [State.readOrFree, State.logRead, h]
  · unfold readRegister; simp only; cases h : s.lenIn <;> simp [State.readOrFree, State.logRead, h]
  · unfold readRegister; simp only; cases h : s.result <;> simp [State.readOrFree, State.logRead, h]

/-- `WAIT DONE` leaves everything but the turns and what has been read. -/
theorem pollDone_frame (s : State) :
    pollDone s = { s with turns := (pollDone s).turns, reads := (pollDone s).reads } := by
  unfold pollDone
  split <;> rfl

/-- On the sequencer's turn a step is the sequencer's step, on the state from which its turn has been taken. -/
theorem step_of_sequencerNext {s : State} (h : s.sequencerNext = true) :
    ∃ rest, step s = sequencerStep { s with turns := rest } := by
  simp only [step, takeTurn]
  rcases ht : s.turns with _ | ⟨_ | _, rest⟩
  · exact ⟨[], congrArg sequencerStep (by rw [← ht])⟩
  · simp [State.sequencerNext, ht] at h
  · exact ⟨rest, rfl⟩

/-- Otherwise a step is the host's next action. -/
theorem step_of_hostNext {s : State} (h : s.sequencerNext = false) :
    ∃ act rest, s.turns = .host act :: rest ∧ step s = hostStep act { s with turns := rest } := by
  simp only [step, takeTurn]
  rcases ht : s.turns with _ | ⟨act | _, rest⟩
  · simp [State.sequencerNext, ht] at h
  · exact ⟨act, rest, rfl, rfl⟩
  · simp [State.sequencerNext, ht] at h

/-- The ways a sequencer's turn can go from `s` to `t`, one for each row of R163's `PHASE` column. -/
inductive SequencerMove (s t : State) : Prop
  /-- no step in `IDLE` and `DONE` -/
  | persists (hp : s.phase = Phase.idle ∨ s.phase = Phase.done) (ht : t = s)
  | seedmix (hp : s.phase = Phase.seedmix) (he : execSeedmix s = .next t)
  | dispatch (hp : s.phase = Phase.dispatch) (he : execDispatch s = .next t)
  | ld0 (hp : s.phase = Phase.ld0) (he : execLd0 s = .next t)
  | ld3 (hp : s.phase = Phase.ld3) (he : execLd3 s = .next t)
  | ld4 (hp : s.phase = Phase.ld4) (he : execLd4 s = .next t)
  | longent (hp : s.phase = Phase.longent) (he : execLongent s = .next t)
  | blk48 (hp : s.phase = Phase.blk48) (he : execBlk48 s = .next t)
  | fold3 (hp : s.phase = Phase.fold3) (he : execFold3 s = .next t)
  | blk16 (hp : s.phase = Phase.blk16) (he : execBlk16 s = .next t)
  | tail (hp : s.phase = Phase.tail) (he : execTail s = .next t)
  | final (hp : s.phase = Phase.final) (he : execFinal s = .next t)

/-- A sequencer's turn that answers a next state is one of these moves (R163). -/
theorem sequencerStep_move {s t : State} (h : sequencerStep s = .next t) : SequencerMove s t := by
  rcases sequencerStep_next h with stay | ⟨i, hi, he⟩
  · exact .persists stay.1 stay.2
  · have hc := decode_phase_code hi
    cases i <;> simp only [encode, Code.phase.injEq, reduceCtorEq] at hc
    case seedmix => exact .seedmix hc.symm he
    case dispatch => exact .dispatch hc.symm he
    case ld0 => exact .ld0 hc.symm he
    case ld3 => exact .ld3 hc.symm he
    case ld4 => exact .ld4 hc.symm he
    case longent => exact .longent hc.symm he
    case blk48 => exact .blk48 hc.symm he
    case fold3 => exact .fold3 hc.symm he
    case blk16 => exact .blk16 hc.symm he
    case tail => exact .tail hc.symm he
    case final => exact .final hc.symm he

/-- A host action that answers a next state: what each may have changed (R170, R172). -/
theorem hostStep_next {act : HostAction} {s t : State} (h : hostStep act s = .next t) :
    (∃ v, act = .wrSeed v ∧ t = { s with seedIn := some v }) ∨
    (∃ v, act = .wrLen v ∧ t = { s with lenIn := some v }) ∨
    (∃ o bytes, act = .wrKey o bytes ∧ o.toNat + bytes.length ≤ 2 ^ 64 ∧
      t = { s with key := s.key.writeBytes o.toNat bytes } ∧
      (s.busy = true → bytes ≠ [] → ∀ n, s.n = some n → n.toNat ≤ o.toNat)) ∨
    (∃ w, act = .wrCmd w ∧ (t = s ∨ t = s.rejectCommand ∨
      ∃ var seed len, (s.phase = Phase.idle ∨ s.phase = Phase.done) ∧ s.seedIn = some seed ∧ s.lenIn = some len ∧
        t = s.acceptStart var seed len)) ∨
    (act = .reset ∧ t = s.resetBlock) ∨
    ((∀ w, act ≠ .wrCmd w) ∧ (∀ v, act ≠ .wrSeed v) ∧ (∀ v, act ≠ .wrLen v) ∧ act ≠ .reset ∧
      ∃ reads draws turns, t = { s with reads := reads, draws := draws, turns := turns }) := by
  cases act with
  | wrSeed v => cases h; exact .inl ⟨v, rfl, rfl⟩
  | wrLen v => cases h; exact .inr (.inl ⟨v, rfl, rfl⟩)
  | wrKey o bytes => exact .inr (.inr (.inl ⟨o, bytes, rfl, writeKey_next h⟩))
  | wrCmd w =>
    refine .inr (.inr (.inr (.inl ⟨w, rfl, ?_⟩)))
    simp only [hostStep] at h
    rcases writeCommand_cases w s with e | e | ⟨var, seed, len, h1, h2, h3, e⟩ <;> rw [e] at h <;> cases h
    · exact .inl rfl
    · exact .inr (.inl rfl)
    · exact .inr (.inr ⟨var, seed, len, h1, h2, h3, rfl⟩)
  | reset => cases h; exact .inr (.inr (.inr (.inr (.inl ⟨rfl, rfl⟩))))
  | wrStatus w => cases h; exact .inr (.inr (.inr (.inr (.inr ⟨by simp, by simp, by simp, by simp, _, _, _, rfl⟩))))
  | wrResult w => cases h; exact .inr (.inr (.inr (.inr (.inr ⟨by simp, by simp, by simp, by simp, _, _, _, rfl⟩))))
  | rd r =>
    cases h
    exact .inr (.inr (.inr (.inr (.inr ⟨by simp, by simp, by simp, by simp, _, _, _, readRegister_frame r s⟩))))
  | waitDone =>
    cases h
    exact .inr (.inr (.inr (.inr (.inr ⟨by simp, by simp, by simp, by simp, _, _, _, pollDone_frame s⟩))))

/-- What every sequencer's turn leaves: the variant, `PERR`, the length, the inputs, the key and the turns. -/
theorem sequencerStep_frame {s t : State} (h : sequencerStep s = .next t) :
    t.var = s.var ∧ t.perr = s.perr ∧ t.n = s.n ∧ t.seedIn = s.seedIn ∧ t.lenIn = s.lenIn ∧ t.key = s.key ∧
    t.turns = s.turns := by
  cases sequencerStep_move h with
  | persists _ ht => simp [ht]
  | seedmix _ he => obtain ⟨s0, _, rfl⟩ := execSeedmix_next.mp he; simp
  | dispatch _ he => obtain ⟨n, _, rfl⟩ := execDispatch_next.mp he; simp
  | ld0 _ he => obtain ⟨s0, _, rfl⟩ := execLd0_next.mp he; simp
  | ld3 _ he => obtain ⟨s0, _, n, _, x, _, rfl⟩ := execLd3_next.mp he; simp
  | ld4 _ he => obtain ⟨s0, _, n, _, w, _, x, _, y, _, rfl⟩ := execLd4_next.mp he; simp
  | longent _ he =>
    obtain ⟨n, _, he⟩ := execLongent_next.mp he
    split at he
    · obtain ⟨s0, _, rfl⟩ := he; simp
    · subst he; simp
  | blk48 _ he =>
    obtain ⟨s0, _, s1, _, s2, _, i, _, p, _, n, _, x, _, y, _, z, _, rfl⟩ := execBlk48_next.mp he; simp
  | fold3 _ he => obtain ⟨s0, _, s1, _, s2, _, i, _, rfl⟩ := execFold3_next.mp he; simp
  | blk16 _ he => obtain ⟨s0, _, i, _, p, _, n, _, x, _, rfl⟩ := execBlk16_next.mp he; simp
  | tail _ he => obtain ⟨s0, _, n, _, x, _, y, _, rfl⟩ := execTail_next.mp he; simp
  | final _ he => obtain ⟨a, _, b, _, n, _, rfl⟩ := execFinal_next.mp he; simp

/-- Both variant records are well formed (R10). -/
theorem variantOf_wf (var : BitVec 1) : variantWf (variantOf var) = true := by
  revert var; decide +kernel

/-- A `START` issued under the launch premises is accepted and launches the run (R169). -/
theorem start_launches {s : State} {var : BitVec 1} {seed n : Word} (h : s.LaunchPremises var seed n) :
    ∃ t, exec (.start var) s = .next t ∧ t.var = var ∧ t.Launched seed n := by
  refine ⟨s.acceptStart var seed n, ?_, rfl, ⟨rfl, rfl, rfl, h.key⟩, h.perr, h.seedIn, h.lenIn, h.variant⟩
  show execStart var s = _
  simp only [execStart, h.phase, h.seedIn, h.lenIn, if_true]

/-- The premises of a launched run hold the weaker ones of R162. -/
theorem State.Launched.begun {s : State} {seed n : Word} (h : s.Launched seed n) : s.Begun seed n := h.1

theorem mem_span {o first count : Nat} : o ∈ span first count ↔ first ≤ o ∧ o < first + count := by
  simp only [span, List.mem_map, List.mem_range]
  constructor
  · rintro ⟨j, hj, rfl⟩
    omega
  · rintro ⟨h1, h2⟩
    exact ⟨o - first, by omega, by omega⟩

@[simp] theorem offsetsFrom_some (v : Word) (f : Word → List Nat) : offsetsFrom (some v) f = f v := rfl

@[simp] theorem offsetsFrom_none (f : Word → List Nat) : offsetsFrom none f = [] := rfl

end Sys2Proof.Machine
end

