-- ==== Sys2Proof/Tests/Slice0.lean ====
section
/-!
SUPPORT. Tests: ill-formed terms refused, words written out from spec/30_encoding.md decoded, single steps held against the
numbers of spec/95_test_vectors.md, and a concrete witness for the hypotheses of each statement.
-/

namespace Sys2Proof.Tests

open Sys2Proof Sys2Proof.Machine

/- One theorem after another: checked side by side they take a thread each. -/
set_option Elab.async false

/-! ## Small states -/

/-- What an answer shows through `f`, if it is a next state. -/
def seen {α : Type} (r : Result) (f : State → α) : Option α :=
  match r with
  | .next t => some (f t)
  | _ => none

/-- The fault of an answer that is one. -/
def faultOf (r : Result) : Option Fault :=
  match r with
  | .fault e => some e
  | _ => none

/-- The refusal of an answer that is one. -/
def refusalOf (r : Result) : Option Refusal :=
  match r with
  | .refused e => some e
  | _ => none

/-- `iota(n)`: byte `j` is `j mod 256` (spec/95). -/
def iota (n : Nat) : List Byte := (List.range n).map (BitVec.ofNat 8)

/-- The 17-byte buffer of spec/95 section 4. -/
def buffer : List Byte :=
  [0x11, 0x22, 0x33, 0x44, 0x55, 0x66, 0x77, 0x88, 0x99, 0xaa, 0xbb, 0xcc, 0xdd, 0xee, 0xff, 0x00, 0x01]

/-- "message digest" (spec/95, S3). -/
def digestText : List Byte :=
  [0x6d, 0x65, 0x73, 0x73, 0x61, 0x67, 0x65, 0x20, 0x64, 0x69, 0x67, 0x65, 0x73, 0x74]

/-- The ten digits of S6. -/
def tenDigits : List Byte := [0x31, 0x32, 0x33, 0x34, 0x35, 0x36, 0x37, 0x38, 0x39, 0x30]

/-- "1234567890" eight times (spec/95, S6). -/
def eightyDigits : List Byte := (List.replicate 8 tenDigits).flatten

/-- A call at a phase: `S0`, `N` and the whole key hold values. -/
def inCall (var : BitVec 1) (phase : BitVec 4) (s0 : Word) (key : List Byte) : State :=
  { State.reset with
    phase := phase, var := var, s0 := some s0, n := some (BitVec.ofNat 64 key.length)
    key := Memory.writeBytes [] 0 key }

/-- A call on the long path: the counters and the other two lanes hold values too. -/
def onLongPath (var : BitVec 1) (phase : BitVec 4) (s0 s1 s2 i p : Word) (key : List Byte) : State :=
  { inCall var phase s0 key with s1 := some s1, s2 := some s2, i := some i, p := some p }

/-- Both inputs written, nothing started. -/
def ready : State := { State.reset with seedIn := some 3, lenIn := some 4 }

/-- The next thing to come is this action of the host. -/
def facing (act : HostAction) (s : State) : State := { s with turns := .host act :: s.turns }

/-! ## Well-formedness: an ill-formed term for each check -/

theorem test_wf_read3_empty : Instr.wf (.read3 0) = false := by decide
theorem test_wf_read3_four : Instr.wf (.read3 4) = false := by decide
theorem test_wf_read3_legal : Instr.wf (.read3 1) = true ∧ Instr.wf (.read3 3) = true := by decide
theorem test_wf_read4_wraps :
    Instr.wf (.read4 0xfffffffffffffffc#64) = false ∧ Instr.wf (.read4 0xfffffffffffffffb#64) = true := by decide
theorem test_wf_read8_wraps :
    Instr.wf (.read8 0xfffffffffffffff8#64) = false ∧ Instr.wf (.read8 0xfffffffffffffff7#64) = true := by decide
theorem test_wf_phase_codes :
    Code.wf (.phase 0x0#4) = false ∧ Code.wf (.phase 0xC#4) = false ∧ Code.wf (.phase 0xD#4) = false ∧
    Code.wf (.phase 0x1#4) = true ∧ Code.wf (.phase 0xB#4) = true := by decide
theorem test_wf_function_label : Code.wf (.fn 5#3 [0]) = false ∧ Code.wf (.fn 4#3 [0]) = true := by decide
theorem test_wf_function_operands :
    Code.wf (.fn 0#3 [0]) = false ∧ Code.wf (.fn 2#3 [0, 0]) = false ∧ Code.wf (.fn 1#3 [0, 0]) = true := by decide
theorem test_wf_command_high_bits : Code.wf (.command 0x21#8) = false ∧ Code.wf (.command 0x80#8) = false := by decide
theorem test_wf_command_op : Code.wf (.command 0x02#8) = false ∧ Code.wf (.command 0x1f#8) = false := by decide
theorem test_wf_command_legal : Code.wf (.command 0x10#8) = true ∧ Code.wf (.command 0x11#8) = true := by decide

/-! ## Decoding: words written out from the tables of spec/30 R72, R73, R75 -/

theorem test_decode_functions :
    decode (.fn 0b000#3 [7, 9]) = .instr (.mum 7 9) ∧ decode (.fn 0b001#3 [7, 9]) = .instr (.mix 7 9) ∧
    decode (.fn 0b010#3 [3]) = .instr (.read3 3) ∧ decode (.fn 0b011#3 [5]) = .instr (.read4 5) ∧
    decode (.fn 0b100#3 [5]) = .instr (.read8 5) := by decide
theorem test_decode_functions_rejected :
    decode (.fn 0b101#3 [5]) = .rejected .reservedFunction ∧ decode (.fn 0b110#3 []) = .rejected .reservedFunction ∧
    decode (.fn 0b111#3 [5]) = .rejected .reservedFunction ∧ decode (.fn 0b000#3 [5]) = .rejected .operandCount := by
  decide
theorem test_decode_phases_short :
    decode (.phase 0b0001#4) = .instr .seedmix ∧ decode (.phase 0b0010#4) = .instr .dispatch ∧
    decode (.phase 0b0011#4) = .instr .ld0 ∧ decode (.phase 0b0100#4) = .instr .ld3 ∧
    decode (.phase 0b0101#4) = .instr .ld4 := by decide
theorem test_decode_phases_long :
    decode (.phase 0b0110#4) = .instr .longent ∧ decode (.phase 0b0111#4) = .instr .blk48 ∧
    decode (.phase 0b1000#4) = .instr .fold3 ∧ decode (.phase 0b1001#4) = .instr .blk16 ∧
    decode (.phase 0b1010#4) = .instr .tail ∧ decode (.phase 0b1011#4) = .instr .final := by decide
theorem test_decode_phases_rejected :
    decode (.phase 0b0000#4) = .rejected .noOperation ∧ decode (.phase 0b1100#4) = .rejected .noOperation ∧
    decode (.phase 0b1101#4) = .rejected .reservedPhase ∧ decode (.phase 0b1111#4) = .rejected .reservedPhase := by
  decide
theorem test_decode_commands :
    decode (.command 0b00000000#8) = .instr (.nop 0) ∧ decode (.command 0b00010000#8) = .instr (.nop 1) ∧
    decode (.command 0b00000001#8) = .instr (.start 0) ∧ decode (.command 0b00010001#8) = .instr (.start 1) := by decide
/-- spec/95 section 11: reserved exactly when `w AND 0xE0 ≠ 0` or `(w AND 0x0F) ≥ 2`. -/
theorem test_decode_all_commands : ∀ w : BitVec 8,
    decode (.command w) = .rejected .reservedCommand ↔ (w &&& 0xE0#8 ≠ 0 ∨ 2 ≤ (w &&& 0x0F#8).toNat) := by decide
theorem test_encode_start : encode (.start 1) = .command 0x11#8 ∧ startWord 1#1 = 0x11#8 ∧ startWord 0#1 = 0x01#8 := by
  decide
theorem test_table_words :
    decodeTableWord 3 0b100 = some (.read8 0) ∧ decodeTableWord 4 0b1011 = some .final ∧
    decodeTableWord 8 0x11 = some (.start 1) ∧ decodeTableWord 4 0b1101 = none ∧ decodeTableWord 8 0x22 = none := by decide

/-! ## The functions (spec/95 sections 1, 3, 5, 7, 8) -/

theorem test_variants_well_formed : variantWf variantA = true ∧ variantWf variantB = true := by decide +kernel
theorem test_split_multiply :
    mumSplit 0x00000001ffffffff#64 0xffffffff00000001#64 = (0x00000002ffffffff#64, 0x00000001fffffffd#64) := by decide
theorem test_norm64 :
    norm64 (-1) = 0xffffffffffffffff#64 ∧ norm64 (2 ^ 64 + 3) = 3 ∧ norm64 (-2 ^ 63) = 0x8000000000000000#64 ∧
    norm64 (2 ^ 64) = 0 := by decide +kernel
theorem test_hexmin :
    hexmin 0x0d3fa000fdb422cf#64 = "d3fa000fdb422cf".toList ∧ hexmin 0 = "0".toList ∧
    hexmin 0x10#64 = "10".toList := by decide +kernel
theorem test_hex16 :
    hex16 0x0409638ee2bde459#64 = "0409638ee2bde459".toList ∧
    hex16 0xabc#64 = "0000000000000abc".toList := by decide +kernel
theorem test_step_counts :
    callSteps variantA 48 = 7 ∧ callSteps variantB 48 = 7 ∧ callSteps variantA 96 = 8 ∧ callSteps variantB 96 = 9 ∧
    callSteps variantA 16 = 4 ∧ callSteps variantA 17 = 6 ∧ callSteps variantB 192 = 11 ∧
    callSteps variantA 4097 = 92 := by decide

/-- The value of a read that gave one. -/
def valueOf {α : Type} (x : Except Fault α) : Option α :=
  match x with
  | .ok v => some v
  | .error _ => none

/-- spec/95 section 1: S1 to S3. -/
theorem test_source_vectors_a :
    valueOf (wyhashCore variantA 0 (keyOfList [])) = some 0x93228a4de0eec5a2#64 ∧
    valueOf (wyhashCore variantA 3 (keyOfList [0x31, 0x32, 0x33, 0x34])) = some 0x0d3fa000fdb422cf#64 ∧
    valueOf (wyhashCore variantA 16 (keyOfList digestText)) = some 0xe580b70f3cb71bf0#64 := by decide +kernel
/-- spec/95 section 1: S4 to S6. -/
theorem test_source_vectors_b :
    valueOf (wyhashCore variantB 0 (keyOfList [])) = some 0x0409638ee2bde459#64 ∧
    valueOf (wyhashCore variantB 2 (keyOfList [0x61, 0x62, 0x63])) = some 0x32dd92e4b2915153#64 ∧
    valueOf (wyhashCore variantB 6 (keyOfList eightyDigits)) = some 0xc39cab13b115aad3#64 := by decide +kernel
/-- The source's expected strings of S2 (at the seed 2^64 + 3, spec/95 section 5), S4 and S5. -/
theorem test_hashhex :
    hashHex 0 (2 ^ 64 + 3) [0x31, 0x32, 0x33, 0x34] = some "d3fa000fdb422cf".toList ∧
    hashHex 1 0 [] = some "0409638ee2bde459".toList ∧
    hashHex 1 2 [0x61, 0x62, 0x63] = some "32dd92e4b2915153".toList := by decide +kernel
/-- S2: the host formats what it has read from `RESULT`, and only that. -/
theorem test_hashhex_of_the_read :
    { ready with reads := [⟨.result, 0x0d3fa000fdb422cf#64⟩] }.hashHexRead 0 = some "d3fa000fdb422cf".toList ∧
    { ready with reads := [⟨.status, 0x02#64⟩] }.hashHexRead 0 = none := by decide +kernel
/-- R80's order of host actions. -/
theorem test_hash_turns :
    hashTurns 1 (-1) [0x61] = some [.host (.wrSeed 0xffffffffffffffff#64), .host (.wrLen 1), .host (.wrKey 0 [0x61]),
      .host (.wrCmd 0x11), .host .waitDone, .host (.rd .result)] := by decide +kernel
/-- spec/95 section 9, F8: the loop comparison at 48 bytes. -/
theorem test_loop_boundary :
    valueOf (wyhashCore variantA 0 (keyOfList (iota 48))) = some 0xecbfb7ff9e3d9a97#64 ∧
    valueOf (wyhashCore variantB 0 (keyOfList (iota 48))) = some 0xce6cc055c4aa2354#64 := by decide +kernel

/-! ## The primitives (spec/95 sections 3, 4) -/

theorem test_mum :
    seen (exec (.mum 0xffffffffffffffff#64 0xffffffffffffffff#64) .reset) (·.outputs) =
      some [0x0000000000000001#64, 0xfffffffffffffffe#64] := by decide +kernel
theorem test_mum_orders_its_halves :
    seen (exec (.mum 0x0123456789abcdef#64 0xfedcba9876543210#64) .reset) (·.outputs) =
      some [0x2236d88fe5618cf0#64, 0x0121fa00ad77d742#64] := by decide +kernel
theorem test_mix :
    seen (exec (.mix 0x0123456789abcdef#64 0xfedcba9876543210#64) .reset) (·.outputs) =
      some [0x2317228f48165bb2#64] := by decide +kernel
theorem test_mix_derives_seed_zero :
    seen (exec (.mix 0xa0761d6478bd642f#64 0xe7037ed1a0b428db#64) .reset) (·.outputs) =
      some [0x1ff5c2923a788d2c#64] := by decide +kernel
theorem test_read3_three :
    seen (exec (.read3 3) (inCall 0 Phase.ld3 0 [0x61, 0x62, 0x63])) (·.outputs) = some [0x616263#64] := by decide +kernel
theorem test_read3_two :
    seen (exec (.read3 2) (inCall 0 Phase.ld3 0 [0x80, 0x01])) (·.outputs) = some [0x800101#64] := by decide +kernel
theorem test_read4_last :
    seen (exec (.read4 13) (inCall 0 Phase.longent 0 buffer)) (·.outputs) = some [0x000000000100ffee#64] := by
  decide +kernel
theorem test_read4_past_the_end :
    faultOf (exec (.read4 14) (inCall 0 Phase.longent 0 buffer)) = some (.keyOutOfBounds 14 4 17) := by decide +kernel
theorem test_read8_odd :
    seen (exec (.read8 3) (inCall 0 Phase.longent 0 buffer)) (·.outputs) = some [0xbbaa998877665544#64] := by
  decide +kernel
theorem test_read8_last :
    seen (exec (.read8 9) (inCall 0 Phase.longent 0 buffer)) (·.outputs) = some [0x0100ffeeddccbbaa#64] := by
  decide +kernel

/-! ## The commands (spec/95 section 11) -/

theorem test_nop_with_variant_bit : seen (exec (.nop 1) ready) (·.var) = some 0 := by decide
theorem test_start_accepted :
    seen (exec (.start 1) ready) (fun t => (t.phase, t.var, t.s0, t.n)) = some (Phase.seedmix, 1, some 3, some 4) := by
  decide
theorem test_start_without_inputs :
    seen (exec (.start 0) .reset) (fun t => (t.phase, t.perr)) = some (Phase.idle, true) := by decide
theorem test_reserved_command :
    seen (writeCommand 0x21#8 ready) (fun t => (t.phase, t.perr)) = some (Phase.idle, true) := by decide

/-! ## The phase operations (spec/95 sections 5, 6, 10) -/

theorem test_seedmix_a :
    seen (exec .seedmix (inCall 0 Phase.seedmix 3 [])) (fun t => (t.s0, t.phase)) =
      some (some 0x454970676e7a2770#64, Phase.dispatch) := by decide +kernel
theorem test_seedmix_b :
    seen (exec .seedmix (inCall 1 Phase.seedmix 0xffffffffffffffff#64 [])) (·.s0) =
      some (some 0x200a3fa5449f92cf#64) := by decide +kernel
theorem test_dispatch_sixteen :
    seen (exec .dispatch (inCall 0 Phase.dispatch 0 (iota 16))) (·.phase) = some Phase.ld4 := by decide +kernel
theorem test_dispatch_longest :
    seen (exec .dispatch { inCall 0 Phase.dispatch 0 [] with n := some 0xffffffffffffffff#64 }) (·.phase) =
      some Phase.longent := by decide +kernel
theorem test_ld0 :
    seen (exec .ld0 (inCall 0 Phase.ld0 0xca813bf4c7abf0a9#64 [])) (fun t => (t.a, t.b)) =
      some (some 0x8bb84b93962eacc9#64, some 0xca813bf4c7abf0a9#64) := by decide +kernel
theorem test_ld3 :
    seen (exec .ld3 (inCall 1 Phase.ld3 0x51fecf31f98f3b6a#64 [0x61, 0x62, 0x63])) (fun t => (t.a, t.b)) =
      some (some 0xe7037ed1a0d54ab8#64, some 0x51fecf31f98f3b6a#64) := by decide +kernel
theorem test_ld4_fourteen :
    seen (exec .ld4 (inCall 0 Phase.ld4 0x951ec28da2be0720#64 digestText)) (fun t => (t.a, t.b)) =
      some (some 0xf8cb2efeb64bcba8#64, some 0xe16da7eacbda2745#64) := by decide +kernel
theorem test_ld4_sixteen :
    seen (exec .ld4 (inCall 0 Phase.ld4 0xca813bf4c7abf0a9#64 (iota 16))) (fun t => (t.a, t.b)) =
      some (some 0x88ba4a939d24a5c1#64, some 0xc58f36f8c0adf5ad#64) := by decide +kernel
theorem test_longent_a_at_48 :
    seen (exec .longent (inCall 0 Phase.longent 9 (iota 48))) (fun t => (t.phase, t.s1, t.i, t.p)) =
      some (Phase.blk48, some 9, some 48, some 0) := by decide +kernel
theorem test_longent_b_at_48 :
    seen (exec .longent (inCall 1 Phase.longent 9 (iota 48))) (fun t => (t.phase, t.s1, t.i, t.p)) =
      some (Phase.blk16, none, some 48, some 0) := by decide +kernel
/-- Program 2 (S6), its `BLK48` row. -/
theorem test_blk48 :
    seen (exec .blk48 (onLongPath 1 Phase.blk48 0xb5e8ca6866bf9601#64 0xb5e8ca6866bf9601#64 0xb5e8ca6866bf9601#64 80 0
        eightyDigits)) (fun t => (t.phase, t.s0, t.s1, t.s2)) =
      some (Phase.fold3, some 0x8e0ed076a83a08ee#64, some 0x66c4a7c02b25e8be#64, some 0xb2d3ebc86b7a63e9#64) := by
  decide +kernel
theorem test_fold3 :
    seen (exec .fold3 (onLongPath 1 Phase.fold3 0x8e0ed076a83a08ee#64 0x66c4a7c02b25e8be#64 0xb2d3ebc86b7a63e9#64 32 48
        [])) (fun t => (t.phase, t.s0)) = some (Phase.blk16, some 0x5a199c7ee86583b9#64) := by decide +kernel
theorem test_blk16 :
    seen (exec .blk16 (onLongPath 1 Phase.blk16 0x5a199c7ee86583b9#64 0 0 32 48 eightyDigits))
        (fun t => (t.phase, t.s0, t.i, t.p)) =
      some (Phase.tail, some 0xf2e67ccfeba10d5d#64, some 16, some 64) := by decide +kernel
theorem test_tail :
    seen (exec .tail (onLongPath 1 Phase.tail 0xf2e67ccfeba10d5d#64 0 0 16 64 eightyDigits)) (fun t => (t.a, t.b)) =
      some (some 0xd5324ee898831eee#64, some 0xc2df44f8dd94396e#64) := by decide +kernel
/-- Program 6: the tail of 17 bytes starts at offset 1. -/
theorem test_tail_overlaps :
    seen (exec .tail (onLongPath 0 Phase.tail 0xea1026bbc46249e7#64 0 0 1 16 (iota 17))) (fun t => (t.a, t.b)) =
      some (some 0x83bf4d96922daec8#64, some 0xfa1f28b6c86943ee#64) := by decide +kernel
theorem test_final :
    seen (exec .final { inCall 0 Phase.final 0 [0, 0, 0, 0] with
        a := some 0xbf8b79a2a21d9ef8#64, b := some 0x717a42565a491541#64 }) (fun t => (t.a, t.b, t.result)) =
      some (some 0x42e2353d1c47b4f8#64, some 0x54e80acb52d4d727#64, some 0x0d3fa000fdb422cf#64) := by decide +kernel
theorem test_final_ends_the_call :
    seen (exec .final { inCall 0 Phase.final 0 [] with a := some 0, b := some 0 }) (·.phase) = some Phase.done := by
  decide +kernel

/-! ## The host and the step (spec/10 R32, spec/95 section 11) -/

theorem test_status_values :
    State.reset.status = 0x00#8 ∧ (inCall 0 Phase.seedmix 0 []).status = 0x01#8 ∧
    (inCall 1 Phase.final 0 []).status = 0x09#8 ∧ (inCall 0 Phase.done 0 []).status = 0x02#8 ∧
    { inCall 1 Phase.done 0 [] with perr := true }.status = 0x0e#8 := by decide
theorem test_status_read :
    seen (step (facing (.rd .status) (inCall 1 Phase.done 0 []))) (·.reads) = some [⟨.status, 0x0a⟩] := by decide
theorem test_wait_done_goes_on :
    seen (step (facing .waitDone (inCall 0 Phase.final 0 []))) (·.turns) = some [.sequencer, .host .waitDone] := by decide
theorem test_key_write_into_a_call :
    refusalOf (step (facing (.wrKey 3 [0]) (inCall 0 Phase.ld4 0 (iota 4)))) = some (.keyWriteDuringCall 3) := by
  decide +kernel
theorem test_key_write_beside_a_call :
    seen (step (facing (.wrKey 4 [7]) (inCall 0 Phase.ld4 0 (iota 4)))) (fun t => t.key.read 4) = some (some 7) := by
  decide +kernel
theorem test_reset_empties_the_block :
    seen (step (facing .reset (inCall 1 Phase.ld4 0 (iota 4)))) (fun t => (t.phase, t.s0, t.key)) =
      some (Phase.idle, none, []) := by decide +kernel
theorem test_reserved_phase_is_stuck :
    faultOf (step { State.reset with phase := 0xD#4 }) = some (.reservedPhase 0xD#4) := by decide
theorem test_fetch_word_runs_a_phase :
    seen (step (State.reset.withFetchWord 4 0x6)) (fun t => (t.phase, t.i)) = some (Phase.blk16, some 17) := by
  decide +kernel
theorem test_fetch_word_runs_a_command :
    seen (step (State.reset.withFetchWord 8 0x01)) (fun t => (t.phase, t.perr)) = some (Phase.idle, true) := by decide

/-! ## Witnesses: concrete states and operands that meet the hypotheses of the statements -/

/-- A long call in which every register of the datapath holds a value. -/
def full : State :=
  { onLongPath 0 Phase.blk48 1 2 3 49 0 (iota 49) with a := some 5, b := some 6, seedIn := some 7, lenIn := some 49 }

/-- A short call of the given length. -/
def short (phase : BitVec 4) (n : Nat) : State := inCall 1 phase 9 (iota n)

/-- A Variant A call of the given length at `LONGENT`. -/
def longA (n : Nat) : State := inCall 0 Phase.longent 9 (iota n)

theorem complete_of_range {s : State} {n : Word}
    (h : ((List.range n.toNat).all fun o => (s.key.read o).isSome) = true) : s.KeyComplete n := by
  intro o ho
  exact List.all_eq_true.mp h o (List.mem_range.mpr ho)

theorem witness_Read3PlacesThreeBytes :
    (short 4 3).n = some 3 ∧ (short 4 3).key.read 0 = some 0 ∧ (short 4 3).key.read (3 / 2) = some 1 ∧
    (short 4 3).key.read (3 - 1) = some 2 ∧ (short 4 1).n = some 1 ∧ (short 4 1).key.read 0 = some 0 ∧
    (short 4 1).key.read (1 / 2) = some 0 ∧ (short 4 1).key.read (1 - 1) = some 0 := by decide +kernel
theorem witness_Read4IsLittleEndian :
    (short 5 4).n = some 4 ∧ 0 + 4 ≤ (4#64).toNat ∧ (short 5 4).key.read 0 = some 0 ∧ (short 5 4).key.read 1 = some 1 ∧
    (short 5 4).key.read 2 = some 2 ∧ (short 5 4).key.read 3 = some 3 := by decide +kernel
theorem witness_Read8IsLittleEndian :
    (short 5 9).n = some 9 ∧ (1#64).toNat + 8 ≤ (9#64).toNat ∧
    (∀ j, j < 8 → (short 5 9).key.read (1 + j) = some (BitVec.ofNat 8 (1 + j))) := by decide +kernel
theorem witness_Read8IsTwoRead4 :
    valueOf (read4 (keyOfList buffer) 9) = some 0xddccbbaa#64 ∧
    valueOf (read4 (keyOfList buffer) (9 + 4)) = some 0x0100ffee#64 := by decide +kernel
/-- Each clause at a boundary: the first window past the end, a length of 0, of 4, and one more than the key's. -/
theorem witness_ReadersStopOutsideTheKey :
    (short 4 2).n = some 2 ∧ (2#64).toNat < (0#64).toNat + 4 ∧ (2#64).toNat < (0#64).toNat + 8 ∧
    ((0#64).toNat = 0 ∨ 3 < (0#64).toNat) ∧ ((4#64).toNat = 0 ∨ 3 < (4#64).toNat) ∧
    1 ≤ (3#64).toNat ∧ (3#64).toNat ≤ 3 ∧ (2#64).toNat < (3#64).toNat := by decide +kernel
theorem witness_OperandWithoutValueStops :
    Reg.s0 ∈ operandRegs State.reset .seedmix ∧ State.reset.reg .s0 = none ∧
    Reg.n ∈ operandRegs State.reset (.read8 0) ∧ State.reset.reg .n = none ∧
    Reg.s0 ∈ operandRegs { longA 48 with s0 := none } .longent ∧ { longA 48 with s0 := none }.reg .s0 = none ∧
    Reg.s0 ∉ operandRegs { longA 47 with s0 := none } .longent := by decide +kernel

/-- A state whose key lacks the one byte at an offset, all else a complete call. -/
def lacking (o : Nat) (s : State) : State := { s with key := s.key.filter fun cell => cell.1 != o }
/-- The last byte of a window, for each operation that reads the key; with that byte each completes
(`witness_FramesOfPrimitivesAndCommands`, `witness_FramesOfPhaseOperations`). -/
theorem witness_OperandWithoutValueStops_key :
    (∀ c ∈ [(Instr.read3 3, 2), (.read4 45, 48), (.read8 41, 48), (.blk48, 47), (.blk16, 15), (.tail, 48)],
      c.2 ∈ keyOffsets (lacking c.2 full) c.1 ∧ (lacking c.2 full).key.read c.2 = none) ∧
    2 ∈ keyOffsets (lacking 2 (short 4 3)) .ld3 ∧ (lacking 2 (short 4 3)).key.read 2 = none ∧
    7 ∈ keyOffsets (lacking 7 (short 5 16)) .ld4 ∧ (lacking 7 (short 5 16)).key.read 7 = none := by decide +kernel
/-- spec/20 R55, spec/93 U11: the fault names the byte. -/
theorem test_unwritten_key_byte :
    faultOf (exec .tail (lacking 48 full)) = some (.keyNoValue 48) ∧
    faultOf (exec .ld4 (lacking 7 (short 5 16))) = some (.keyNoValue 7) := by decide +kernel
theorem witness_AcceptedStartLatchesInputs :
    ready.phase = Phase.idle ∧ ready.seedIn = some 3 ∧ ready.lenIn = some 4 ∧
    { full with phase := Phase.done }.phase = Phase.done ∧ full.seedIn = some 7 ∧ full.lenIn = some 49 := by decide
theorem witness_RejectedStartSetsPerrOnly :
    full.busy = true ∧ State.reset.seedIn = none ∧ { ready with lenIn := none }.lenIn = none := by decide
theorem witness_SeedmixDerivesTheSeed : (short 1 0).s0 = some 9 := by decide
/-- The four classes at their boundaries. -/
theorem witness_DispatchRoutesByLength :
    (short 2 0).n = some 0 ∧ (short 2 1).n = some 1 ∧ (short 2 3).n = some 3 ∧ (short 2 4).n = some 4 ∧
    (short 2 16).n = some 16 ∧ (short 2 17).n = some 17 := by decide +kernel
theorem witness_Ld0LoadsTheEmptyKey : (short 3 0).s0 = some 9 := by decide
theorem witness_Ld3LoadsOneToThreeBytes :
    (short 4 2).s0 = some 9 ∧ (short 4 2).n = some 2 ∧ 1 ≤ (2#64).toNat ∧ (2#64).toNat ≤ 3 ∧
    (short 4 2).key.read 0 = some 0 ∧ (short 4 2).key.read (2 / 2) = some 1 ∧
    (short 4 2).key.read (2 - 1) = some 1 := by decide +kernel
theorem witness_Ld4PacksFourWindows :
    (short 5 4).s0 = some 9 ∧ (short 5 4).n = some 4 ∧ (short 5 4).KeyComplete 4 ∧
    (short 5 16).s0 = some 9 ∧ (short 5 16).n = some 16 ∧ (short 5 16).KeyComplete 16 :=
  ⟨rfl, rfl, complete_of_range (by decide +kernel), rfl, rfl, complete_of_range (by decide +kernel)⟩
/-- Both variants on both sides of the comparison; where the 48-byte stage is not entered, `S0` may hold no value. -/
theorem witness_LongentEntersTheLongPath :
    (longA 48).s0 = some 9 ∧ (longA 48).var = 0 ∧ (longA 48).n = some 48 ∧
    { longA 47 with s0 := none }.n = some 47 ∧ { longA 47 with s0 := none }.s0 = none ∧
    (inCall 1 6 9 (iota 49)).s0 = some 9 ∧ (inCall 1 6 9 (iota 49)).n = some 49 ∧
    (inCall 1 6 9 (iota 48)).var = 1 ∧ (inCall 1 6 9 (iota 48)).n = some 48 := by decide +kernel
/-- spec/43 R132: the arm that enters the 16-byte stage names no `S0`; the other copies it. -/
theorem test_longent_reads_s0_where_it_copies_it :
    seen (exec .longent { longA 47 with s0 := none }) (fun t => (t.phase, t.i, t.p)) =
      some (Phase.blk16, some 47, some 0) ∧
    faultOf (exec .longent { longA 48 with s0 := none }) = some (.noValue .s0) := by decide +kernel
theorem full_complete : full.KeyComplete 49 := complete_of_range (by decide +kernel)
theorem witness_Blk48UpdatesThreeLanes :
    full.s0 = some 1 ∧ full.s1 = some 2 ∧ full.s2 = some 3 ∧ full.i = some 49 ∧ full.p = some 0 ∧ full.n = some 49 ∧
    48 ≤ (49#64).toNat ∧ (0#64).toNat + 48 ≤ (49#64).toNat ∧ full.KeyComplete 49 :=
  ⟨rfl, rfl, rfl, rfl, rfl, rfl, by decide, by decide, full_complete⟩
/-- Sixteen bytes left, and seventeen. -/
theorem witness_Fold3FoldsTheLanes :
    full.s0 = some 1 ∧ full.s1 = some 2 ∧ full.s2 = some 3 ∧ { full with i := some 16 }.i = some 16 ∧
    { full with i := some 17 }.i = some 17 := ⟨rfl, rfl, rfl, rfl, rfl⟩
theorem witness_Blk16FoldsOneChunk :
    full.s0 = some 1 ∧ { full with i := some 17, p := some 32 }.i = some 17 ∧
    { full with i := some 17, p := some 32 }.p = some 32 ∧ full.n = some 49 ∧ 16 < (17#64).toNat ∧
    (32#64).toNat + 16 ≤ (49#64).toNat ∧ full.KeyComplete 49 :=
  ⟨rfl, rfl, rfl, rfl, by decide, by decide, full_complete⟩
theorem witness_TailLoadsTheLastSixteenBytes :
    (short 10 17).s0 = some 9 ∧ (short 10 17).n = some 17 ∧ 17 ≤ (17#64).toNat ∧ (short 10 17).KeyComplete 17 :=
  ⟨rfl, rfl, by decide, complete_of_range (by decide +kernel)⟩
theorem witness_FinalMultipliesAndMixes : full.a = some 5 ∧ full.b = some 6 ∧ full.n = some 49 := ⟨rfl, rfl, rfl⟩
theorem witness_WindowsFitTheKey : 4 ≤ (4#64).toNat ∧ (4#64).toNat ≤ 16 ∧ 4 ≤ (16#64).toNat ∧ (16#64).toNat ≤ 16 := by
  decide
theorem witness_StepRunsThePhaseOperation :
    decode (.phase full.phase) = .instr .blk48 ∧ full.turns = [] ∧
    { full with turns := [.sequencer] }.turns = .sequencer :: [] := ⟨rfl, rfl, rfl⟩
theorem witness_StepRunsTheCommandWord :
    (facing (.wrCmd 0x11) ready).turns = .host (.wrCmd 0x11) :: [] ∧ decode (.command 0x11#8) = .instr (.start 1) ∧
    (facing (.wrCmd 0x21) ready).turns = .host (.wrCmd 0x21) :: [] ∧ (0x21#8).extractLsb' 5 3 ≠ 0#3 ∧
    (facing (.wrCmd 0x02) ready).turns = .host (.wrCmd 0x02) :: [] ∧ 2 ≤ ((0x02#8).extractLsb' 0 4).toNat := by
  decide
theorem witness_SequencerWithoutStep :
    State.reset.turns = [] ∧ State.reset.phase = Phase.idle ∧ { State.reset with phase := 0xC#4 }.phase = Phase.done ∧
    0xD ≤ { State.reset with phase := 0xD#4 }.phase.toNat ∧
    { State.reset with turns := [.sequencer] }.turns = .sequencer :: [] ∧
    { State.reset with turns := [.sequencer], phase := 0xF#4 }.turns = .sequencer :: [] ∧
    0xD ≤ { State.reset with turns := [.sequencer], phase := 0xF#4 }.phase.toNat := by decide
theorem witness_HostWritesOfRegisters :
    (facing (.wrSeed 1) full).turns = .host (.wrSeed 1) :: [] ∧ (facing (.wrLen 1) full).turns = .host (.wrLen 1) :: [] ∧
    (facing (.wrStatus 1) full).turns = .host (.wrStatus 1) :: [] ∧
    (facing (.wrResult 1) full).turns = .host (.wrResult 1) :: [] := ⟨rfl, rfl, rfl, rfl⟩
/-- Idle, and while a call runs at the first offset past its key; the last byte of the offset space. -/
theorem witness_HostWritesOfTheKey :
    ready.key.wf = true ∧ ready.busy = false ∧ (0xffffffffffffffff#64).toNat + [0#8].length ≤ 2 ^ 64 ∧
    full.key.wf = true ∧ full.n = some 49 ∧ (49#64).toNat ≤ (49#64).toNat ∧ (49#64).toNat + [0#8].length ≤ 2 ^ 64 := by
  decide +kernel
theorem witness_HostKeyWritesThatStop :
    2 ^ 64 < (0xffffffffffffffff#64).toNat + [0#8, 0#8].length ∧ (48#64).toNat + [0#8].length ≤ 2 ^ 64 ∧
    full.busy = true ∧ full.n = some 49 ∧ [0#8] ≠ [] ∧ (48#64).toNat < (49#64).toNat := by decide +kernel
theorem witness_StatusIsComposed :
    (facing (.rd .status) full).turns = .host (.rd .status) :: [] ∧ full.phase.toNat ≤ 12 ∧
    (facing (.wrStatus 7) full).turns = .host (.wrStatus 7) :: [] := ⟨rfl, by decide, rfl⟩
/-- Each register, with a value and without. -/
theorem witness_HostReadsOfRegisters :
    (facing (.rd .seedIn) full).turns = .host (.rd .seedIn) :: [] ∧ full.seedIn = some 7 ∧ full.lenIn = some 49 ∧
    { full with result := some 1 }.result = some 1 ∧ State.reset.seedIn = none ∧ State.reset.lenIn = none ∧
    State.reset.result = none := ⟨rfl, rfl, rfl, rfl, rfl, rfl, rfl⟩
theorem witness_WaitDonePollsStatus :
    (facing .waitDone full).turns = .host .waitDone :: [] ∧ full.phase ≠ Phase.done ∧
    (short 12 0).phase = Phase.done := ⟨rfl, by decide, rfl⟩
theorem witness_ResetFromEveryState : (facing .reset full).turns = .host .reset :: [] := rfl
theorem full_inv : full.Inv := by
  refine ⟨?_, ?_⟩ <;> decide +kernel
/-- A sequencer's step and a host's. -/
theorem witness_EveryStepKeepsTheInvariant :
    full.Inv ∧ (∃ t, step full = .next t) ∧ (facing (.wrSeed 1) full).Inv ∧ (∃ t, step (facing (.wrSeed 1) full) = .next t) :=
  ⟨full_inv, ⟨_, rfl⟩, full_inv, ⟨_, rfl⟩⟩
theorem witness_NoStepOfACallStops :
    full.Inv ∧ full.busy = true ∧ full.sequencerNext = true ∧ full.n = some 49 ∧ full.KeyComplete 49 :=
  ⟨full_inv, rfl, rfl, rfl, full_complete⟩
theorem begun_full : { full with phase := Phase.seedmix }.Begun 1 49 := ⟨rfl, rfl, rfl, full_complete⟩
/-- All of R169's premises: the inputs still hold what `START` latched, and `PERR` is 0. -/
theorem launched_full : { full with phase := Phase.seedmix, seedIn := some 1 }.Launched 1 49 :=
  ⟨begun_full, rfl, rfl, rfl, by decide +kernel⟩
theorem witness_LaunchPremises : { full with phase := Phase.done }.LaunchPremises 1 7 49 :=
  ⟨.inr rfl, rfl, rfl, rfl, full_complete, by decide +kernel⟩
theorem witness_SequencerComputesWyhash :
    { full with phase := Phase.seedmix }.Begun 1 49 ∧ { full with phase := Phase.seedmix }.turns = [] ∧
    { full with phase := Phase.seedmix, seedIn := some 1 }.Launched 1 49 ∧
    { full with phase := Phase.seedmix, seedIn := some 1 }.turns = [] :=
  ⟨begun_full, rfl, launched_full, rfl⟩
/-- The second block holds other values in every register and every byte the result does not depend on. -/
theorem witness_ResultDependsOnInputsOnly :
    { full with phase := Phase.seedmix }.Begun 1 49 ∧ (inCall 0 Phase.seedmix 1 (iota 49)).Begun 1 49 ∧
    full.var = (inCall 0 Phase.seedmix 1 (iota 49)).var ∧ (inCall 0 Phase.seedmix 1 (iota 49)).turns = [] ∧
    (∀ o, o < (49#64).toNat → full.key.read o = (inCall 0 Phase.seedmix 1 (iota 49)).key.read o) :=
  ⟨begun_full, ⟨rfl, rfl, rfl, full_complete⟩, rfl, rfl, fun _ _ => rfl⟩
/-- Both clauses; the second at the shortest key that is not admitted. -/
theorem witness_EveryInputHasAResult :
    (iota 17).length < 2 ^ 64 ∧ 2 ^ 64 ≤ (List.replicate (2 ^ 64) (0 : Byte)).length :=
  ⟨by decide +kernel, by rw [List.length_replicate]⟩
theorem witness_StepCountsAreBounded : 17 ≤ 17 ∧ 17 ≤ 96 := by decide

/-- One state per clause of the sequencer's successors. -/
def phaseStates : List State :=
  [short 0 0, short 1 0, short 2 3, short 3 0, short 4 3, short 5 4, inCall 0 6 9 (iota 48), full,
    { full with phase := Phase.fold3, i := some 1, p := some 48 }, { full with phase := Phase.blk16, i := some 17, p := some 32 },
    { full with phase := Phase.tail }, { full with phase := Phase.final }, short 12 0]
theorem witness_PhaseSuccessors :
    phaseStates.map (·.phase) = [0, 1, 2, 3, 4, 5, 6, 7, 8, 9, 10, 11, 12] ∧
    (∀ s ∈ phaseStates, s.sequencerNext = true ∧ (seen (step s) fun _ => ()).isSome = true) ∧
    (facing (.wrCmd 0x11) ready).sequencerNext = false ∧
    (seen (step (facing (.wrCmd 0x11) ready)) fun _ => ()).isSome = true := by decide +kernel
theorem witness_OnlyResetClearsPerrAndReturnsToIdle :
    (∃ t, step (facing (.wrCmd 0x21) ready) = .next t ∧ ready.perr = false ∧ t.perr = true ∧ t.phase = Phase.idle) ∧
    (facing (.wrCmd 0x21) ready).resetNext = false ∧
    (∃ t, step { full with perr := true } = .next t) ∧ { full with perr := true }.resetNext = false :=
  ⟨⟨_, rfl, rfl, rfl, rfl⟩, rfl, ⟨_, rfl⟩, rfl⟩
theorem witness_HostActionsLeaveTheDatapath :
    (∃ t, step (facing (.wrSeed 1) full) = .next t) ∧ (facing (.wrSeed 1) full).sequencerNext = false ∧
    (facing (.wrSeed 1) full).resetNext = false ∧
    (∃ t, step (facing (.wrCmd 0x01) ready) = .next t ∧ t.phase = Phase.seedmix) := ⟨⟨_, rfl⟩, rfl, rfl, ⟨_, rfl, rfl⟩⟩
theorem witness_VariantAndLengthConstantInACall :
    full.busy = true ∧ (∃ t, step full = .next t) ∧ full.resetNext = false ∧
    (facing (.wrCmd 0x11) full).busy = true ∧ (∃ t, step (facing (.wrCmd 0x11) full) = .next t) :=
  ⟨rfl, ⟨_, rfl⟩, rfl, rfl, ⟨_, rfl⟩⟩
theorem witness_InputsChangedOnlyByTheHost :
    (∃ t, step (facing (.wrSeed 1) full) = .next t ∧ t.seedIn ≠ full.seedIn) ∧
    (∃ t, step (facing (.wrLen 1) full) = .next t ∧ t.lenIn ≠ full.lenIn) ∧
    (facing (.wrSeed 1) full).resetNext = false ∧ (facing (.wrLen 1) full).resetNext = false :=
  ⟨⟨_, rfl, by decide⟩, ⟨_, rfl, by decide⟩, rfl, rfl⟩
/-- The three ways: the `FINAL` step, an accepted `START`, reset. -/
theorem witness_ResultWrittenOnlyByFinal :
    (∃ t, step { full with phase := Phase.final } = .next t ∧ t.result ≠ full.result) ∧
    (∃ t, step (facing (.wrCmd 0x01) { ready with result := some 1 }) = .next t ∧ t.result ≠ some 1) ∧
    (∃ t, step (facing .reset { full with result := some 1 }) = .next t ∧ t.result ≠ some 1) :=
  ⟨⟨_, rfl, by decide +kernel⟩, ⟨_, rfl, by decide⟩, ⟨_, rfl, by decide⟩⟩
theorem witness_NoOperationWritesTheKey : ∃ t, exec .blk48 full = .next t := ⟨_, rfl⟩
theorem witness_KeyConstantDuringACall :
    full.key.wf = true ∧ full.busy = true ∧ full.n = some 49 ∧ (∃ t, step (facing (.wrKey 49 [1]) full) = .next t) ∧
    (facing (.wrKey 49 [1]) full).resetNext = false ∧ 48 < (49#64).toNat :=
  ⟨full_inv.1, rfl, rfl, ⟨_, rfl⟩, rfl, by decide⟩
/-- The same call with other lanes and another key. -/
theorem witness_PhasePathIgnoresKeyAndSeed :
    (onLongPath 0 7 11 12 13 49 0 (List.replicate 49 0xff)).phase = full.phase ∧
    (onLongPath 0 7 11 12 13 49 0 (List.replicate 49 0xff)).n = full.n ∧
    (onLongPath 0 7 11 12 13 49 0 (List.replicate 49 0xff)).i = full.i ∧ full.sequencerNext = true ∧
    (∃ t, step full = .next t) ∧ (∃ t, step (onLongPath 0 7 11 12 13 49 0 (List.replicate 49 0xff)) = .next t) :=
  ⟨rfl, rfl, rfl, rfl, ⟨_, rfl⟩, ⟨_, rfl⟩⟩
/-- Each operation the clauses name completes in some state. -/
theorem witness_FramesOfPrimitivesAndCommands :
    ∀ i ∈ [Instr.mum 2 3, .mix 2 3, .read3 3, .read4 45, .read8 41, .nop 1, .start 0],
      (seen (exec i full) fun _ => ()).isSome = true := by decide +kernel
theorem witness_FramesOfStartAccepted : ∃ t, exec (.start 1) ready = .next t ∧ t.phase = Phase.seedmix := ⟨_, rfl, rfl⟩
theorem witness_FramesOfPhaseOperations :
    (∀ i ∈ [Instr.seedmix, .dispatch, .ld0, .longent, .blk48, .fold3, .blk16, .tail, .final],
      (seen (exec i full) fun _ => ()).isSome = true) ∧
    (seen (exec .ld3 (short 4 3)) fun _ => ()).isSome = true ∧ (seen (exec .ld4 (short 5 4)) fun _ => ()).isSome = true ∧
    seen (exec .longent (inCall 1 6 9 (iota 48))) (fun t => decide (t.phase ≠ Phase.blk48)) = some true := by
  decide +kernel
theorem witness_FormattedShapes : (fmt variantA 0).head? = some '0' := by decide +kernel
theorem witness_EndedWell : (short 12 0).EndedWell := ⟨rfl, rfl⟩

end Sys2Proof.Tests
end

/-!
PROOFS. The operands of an operation (spec/10_state.md R42, spec/20_memory.md R55), and the window table (spec/42 R118).
-/

namespace Sys2Proof.Machine

/-! ## The window table -/

@[simp] theorem variantOf_win (var : BitVec 1) : (variantOf var).win = window := by
  unfold variantOf
  split <;> rfl

/-- The window table has a row exactly for the lengths 4..16, the row of R118 as natural numbers. -/
theorem window_some {n : Word} {w : Windows} (h : window n = some w) :
    4 ≤ n.toNat ∧ n.toNat ≤ 16 ∧ w.ah.toNat = 0 ∧ w.al.toNat = n.toNat / 8 * 4 ∧ w.bh.toNat = n.toNat - 4 ∧
      w.bl.toNat = n.toNat - 4 - n.toNat / 8 * 4 := by
  unfold window at h
  split at h
  · rename_i hn
    have hd : ((n >>> 3) <<< 2).toNat = n.toNat / 8 * 4 := by
      rw [BitVec.toNat_shiftLeft, BitVec.toNat_ushiftRight, Nat.shiftLeft_eq, Nat.shiftRight_eq_div_pow]
      omega
    have h4 : (n - 4).toNat = n.toNat - 4 := by bv_omega
    cases h
    refine ⟨hn.1, hn.2, rfl, hd, h4, ?_⟩
    rw [BitVec.toNat_sub_of_le (by rw [BitVec.le_def, hd, h4]; omega), hd, h4]
  · cases h

theorem window_isSome {n : Word} (h4 : 4 ≤ n.toNat) (h16 : n.toNat ≤ 16) : ∃ w, window n = some w := by
  simp [window, h4, h16]

/-- Settles O25: the row of R118, read as natural numbers. -/
theorem windowsFitTheKey : Obligations.WindowsFitTheKey := by
  intro var n h4 h16
  obtain ⟨w, hw⟩ := window_isSome h4 h16
  obtain ⟨-, -, hah, hal, hbh, hbl⟩ := window_some hw
  exact ⟨w, by rw [variantOf_win, hw], by omega, by omega, by omega, by omega⟩

theorem windowsAt_variantOf {var : BitVec 1} {n : Word} {w : Windows} :
    windowsAt (variantOf var) n = .ok w ↔ window n = some w := by
  simp only [windowsAt, variantOf_win]
  cases window n <;> simp

/-! ## An operation that completes has found a value in every register and key byte it reads -/

theorem reg_isSome_of_exec_next {i : Instr} {s t : State} (h : exec i s = .next t) :
    ∀ r ∈ operandRegs s i, (s.reg r).isSome = true := by
  cases i with
  | mum _ _ | mix _ _ | nop _ | start _ => simp [operandRegs]
  | read3 len => obtain ⟨n, _, hn, _⟩ := execRead3_next.mp h; simp [operandRegs, hn]
  | read4 o => obtain ⟨n, _, hn, _⟩ := execRead4_next.mp h; simp [operandRegs, hn]
  | read8 o => obtain ⟨n, _, hn, _⟩ := execRead8_next.mp h; simp [operandRegs, hn]
  | seedmix => obtain ⟨s0, hs, _⟩ := execSeedmix_next.mp h; simp [operandRegs, hs]
  | dispatch => obtain ⟨n, hn, _⟩ := execDispatch_next.mp h; simp [operandRegs, hn]
  | ld0 => obtain ⟨s0, hs, _⟩ := execLd0_next.mp h; simp [operandRegs, hs]
  | ld3 => obtain ⟨s0, hs, n, hn, _⟩ := execLd3_next.mp h; simp [operandRegs, hs, hn]
  | ld4 => obtain ⟨s0, hs, n, hn, _⟩ := execLd4_next.mp h; simp [operandRegs, hs, hn]
  | longent =>
    obtain ⟨n, hn, hstage⟩ := execLongent_next.mp h
    by_cases hc : cond48 s.variant n.toNat = true
    · obtain ⟨s0, hs, _⟩ := (if_pos hc).mp hstage
      simp [operandRegs, State.entersBlk48, holds, hc, hs, hn]
    · simp [operandRegs, State.entersBlk48, holds, hc, hn]
  | blk48 =>
    obtain ⟨s0, h0, s1, h1, s2, h2, i, hi, p, hp, n, hn, _⟩ := execBlk48_next.mp h
    simp [operandRegs, h0, h1, h2, hi, hp, hn]
  | fold3 =>
    obtain ⟨s0, h0, s1, h1, s2, h2, i, hi, _⟩ := execFold3_next.mp h
    simp [operandRegs, h0, h1, h2, hi]
  | blk16 =>
    obtain ⟨s0, h0, i, hi, p, hp, n, hn, _⟩ := execBlk16_next.mp h
    simp [operandRegs, h0, hi, hp, hn]
  | tail => obtain ⟨s0, hs, n, hn, _⟩ := execTail_next.mp h; simp [operandRegs, hs, hn]
  | final => obtain ⟨a, ha, b, hb, n, hn, _⟩ := execFinal_next.mp h; simp [operandRegs, ha, hb, hn]

theorem key_isSome_of_read3 {s : State} {n len x : Word} (h : read3 (s.keyView n) len = .ok x) :
    ∀ o ∈ [0, len.toNat / 2, len.toNat - 1], (s.key.read o).isSome = true := by
  obtain ⟨first, middle, last⟩ := read3_window h
  simpa using ⟨first, middle, last⟩

/-- Every byte of a window that has been read holds a value, in the form in which `keyOffsets` lists it. -/
theorem key_isSome_of_span {s : State} {first count : Nat}
    (h : ∀ j, j < count → (s.key.read (first + j)).isSome = true) :
    ∀ o ∈ span first count, (s.key.read o).isSome = true := by
  intro o ho
  obtain ⟨hlow, hhigh⟩ := mem_span.mp ho
  have := h (o - first) (by omega)
  rwa [show first + (o - first) = o by omega] at this

/-- Two adjacent windows that hold values are one window that does. -/
theorem windows_append {byte : Nat → Option Byte} {o a b : Nat}
    (hlow : ∀ j, j < a → (byte (o + j)).isSome = true) (hhigh : ∀ j, j < b → (byte (o + a + j)).isSome = true) :
    ∀ j, j < a + b → (byte (o + j)).isSome = true := by
  intro j hj
  by_cases ha : j < a
  · exact hlow j ha
  · have := hhigh (j - a) (by omega)
    rwa [show o + a + (j - a) = o + j by omega] at this

theorem key_isSome_of_read4 {s : State} {n x : Word} {o : Nat} (h : read4 (s.keyView n) o = .ok x) :
    ∀ j ∈ span o 4, (s.key.read j).isSome = true :=
  key_isSome_of_span (read4_window h).2

/-- `LD4` has read all four windows. -/
theorem key_isSome_of_ld4_next {s t : State} (h : execLd4 s = .next t) :
    ∀ o ∈ keyOffsets s .ld4, (s.key.read o).isSome = true := by
  obtain ⟨s0, _, n, hn, w, hw, x, hx, y, hy, _⟩ := execLd4_next.mp h
  obtain ⟨-, -, hah, hal, hbh, hbl⟩ := window_some (windowsAt_variantOf.mp hw)
  obtain ⟨⟨_, rah⟩, ⟨_, ral⟩⟩ := lane_windows hx
  obtain ⟨⟨_, rbh⟩, ⟨_, rbl⟩⟩ := lane_windows hy
  rw [hah] at rah
  rw [hal] at ral
  rw [hbh] at rbh
  rw [hbl] at rbl
  simp only [keyOffsets, hn, offsetsFrom_some, List.mem_append]
  rintro o (((ho | ho) | ho) | ho)
  · exact key_isSome_of_read4 rah o ho
  · exact key_isSome_of_read4 ral o ho
  · exact key_isSome_of_read4 rbh o ho
  · exact key_isSome_of_read4 rbl o ho

/-- `BLK48` has read three adjacent sub-blocks: the bound on each keeps the next offset from wrapping. -/
theorem key_isSome_of_blk48_next {s t : State} (h : execBlk48 s = .next t) :
    ∀ o ∈ keyOffsets s .blk48, (s.key.read o).isSome = true := by
  obtain ⟨_, _, _, _, _, _, _, _, p, hp, n, _, _, r0, _, r1, _, r2, _⟩ := execBlk48_next.mp h
  have hlen : (s.keyView n).len < 2 ^ 64 := n.isLt
  obtain ⟨b0, w0⟩ := subBlock_window hlen r0
  obtain ⟨b1, w1⟩ := subBlock_window hlen r1
  obtain ⟨b2, w2⟩ := subBlock_window hlen r2
  have e1 : (p + 16).toNat = p.toNat + 16 := by bv_omega
  have e2 : (p + 32).toNat = p.toNat + 32 := by bv_omega
  rw [e1] at w1
  rw [e2] at w2
  have hspan := windows_append w0 (windows_append w1 w2)
  simpa only [keyOffsets, hp, offsetsFrom_some] using key_isSome_of_span hspan

/-- `TAIL` has read the last sixteen bytes: with fewer in the key, `N - 16` wraps to past its end. -/
theorem key_isSome_of_tail_next {s t : State} (h : execTail s = .next t) :
    ∀ o ∈ keyOffsets s .tail, (s.key.read o).isSome = true := by
  obtain ⟨_, _, n, hn, x, hx, y, hy, _⟩ := execTail_next.mp h
  obtain ⟨b0, w0⟩ := read8_window hx
  obtain ⟨-, w1⟩ := read8_window hy
  have hn16 : 16 ≤ n.toNat := by
    have hb : (n - 16).toNat + 8 ≤ n.toNat := b0
    bv_omega
  have e0 : (n - 16).toNat = n.toNat - 16 := by bv_omega
  have e1 : (n - 8).toNat = n.toNat - 16 + 8 := by bv_omega
  rw [e0] at w0
  rw [e1] at w1
  have hspan := windows_append w0 w1
  simpa only [keyOffsets, hn, offsetsFrom_some] using key_isSome_of_span hspan

theorem key_isSome_of_exec_next {i : Instr} {s t : State} (h : exec i s = .next t) :
    ∀ o ∈ keyOffsets s i, (s.key.read o).isSome = true := by
  cases i with
  | mum _ _ | mix _ _ | seedmix | dispatch | ld0 | longent | fold3 | final | nop _ | start _ => simp [keyOffsets]
  | read3 len =>
    obtain ⟨_, _, _, hr, _⟩ := execRead3_next.mp h
    exact key_isSome_of_read3 hr
  | read4 o =>
    obtain ⟨_, _, _, hr, _⟩ := execRead4_next.mp h
    exact key_isSome_of_read4 hr
  | read8 o =>
    obtain ⟨_, _, _, hr, _⟩ := execRead8_next.mp h
    exact key_isSome_of_span (read8_window hr).2
  | ld3 =>
    obtain ⟨_, _, n, hn, x, hr, _⟩ := execLd3_next.mp h
    simpa only [keyOffsets, hn, offsetsFrom_some] using key_isSome_of_read3 hr
  | ld4 => exact key_isSome_of_ld4_next h
  | blk48 => exact key_isSome_of_blk48_next h
  | blk16 =>
    obtain ⟨_, _, _, _, p, hp, n, _, _, hr, _⟩ := execBlk16_next.mp h
    simpa only [keyOffsets, hp, offsetsFrom_some] using key_isSome_of_span (subBlock_window n.isLt hr).2
  | tail => exact key_isSome_of_tail_next h

/-- An operation that does not complete stops with a fault. -/
theorem exec_faults_of_not_next {i : Instr} {s : State} (h : ∀ t, exec i s ≠ .next t) : ∃ f, exec i s = .fault f := by
  rcases exec_nextOrFault i s with ⟨t, ht⟩ | hf
  · exact absurd ht (h t)
  · exact hf

/-- Settles O9: an operation that completes has found a value in each register and key byte it reads, and one that
does not complete stops with a fault. -/
theorem operandWithoutValueStops : Obligations.OperandWithoutValueStops := by
  intro i s
  constructor
  · intro r hr hnone
    exact exec_faults_of_not_next fun t ht => by simpa [hnone] using reg_isSome_of_exec_next ht r hr
  · intro o ho hnone
    exact exec_faults_of_not_next fun t ht => by simpa [hnone] using key_isSome_of_exec_next ht o ho

end Sys2Proof.Machine

/-!
PROOFS. The invariant `State.Inv` phase by phase (spec/43_long_input.md R140), and that every sequencer step keeps it
(spec/45_call_sequence.md R163).
-/

namespace Sys2Proof.Machine

/-! ## The length classes -/

theorem classOf_eq_c0 {n : Word} : classOf n = .c0 ↔ n.toNat = 0 := by
  rw [classOf_eq]
  split_ifs <;> simp only [true_iff, false_iff] <;> omega

theorem classOf_eq_c3 {n : Word} : classOf n = .c3 ↔ 1 ≤ n.toNat ∧ n.toNat ≤ 3 := by
  rw [classOf_eq]
  split_ifs <;> simp only [true_iff, false_iff] <;> omega

theorem classOf_eq_c4 {n : Word} : classOf n = .c4 ↔ 4 ≤ n.toNat ∧ n.toNat ≤ 16 := by
  rw [classOf_eq]
  split_ifs <;> simp only [true_iff, false_iff] <;> omega

theorem classOf_eq_clong {n : Word} : classOf n = .clong ↔ 17 ≤ n.toNat := by
  rw [classOf_eq]
  split_ifs <;> simp only [true_iff, false_iff] <;> omega

/-! ## What the invariant says at each phase -/

theorem holds_iff {r : Option Word} {test : Word → Bool} : holds r test = true ↔ ∃ v, r = some v ∧ test v = true := by
  cases r <;> simp [holds]

/-- `N`, `I` and `P` on the long path (R140). -/
structure Counters (s : State) (n i p : Word) : Prop where
  hn : s.n = some n
  hi : s.i = some i
  hp : s.p = some p
  long : 17 ≤ n.toNat
  sum : p.toNat + i.toNat = n.toNat
  sixteen : p.toNat % 16 = 0

theorem long_countersOk_iff {s : State} {test : Nat → Nat → Nat → Bool} :
    (holds s.n fun n => decide (17 ≤ n.toNat)) = true ∧ countersOk s test = true ↔
      ∃ n i p, Counters s n i p ∧ test n.toNat i.toNat p.toNat = true := by
  simp only [countersOk, holds_iff, Bool.and_eq_true, decide_eq_true_eq]
  constructor
  · rintro ⟨⟨n, hn, hlong⟩, n', hn', i, hi, p, hp, ⟨hsum, h16⟩, ht⟩
    obtain rfl : n = n' := Option.some.inj (hn.symm.trans hn')
    exact ⟨n, i, p, ⟨hn, hi, hp, hlong, hsum, h16⟩, ht⟩
  · rintro ⟨n, i, p, h, ht⟩
    exact ⟨⟨n, h.hn, h.long⟩, n, h.hn, i, h.hi, p, h.hp, ⟨h.sum, h.sixteen⟩, ht⟩

theorem longShape_blk48 {s : State} (h : s.phase = Phase.blk48) :
    longShape s = true ↔ ∃ n i p, Counters s n i p ∧ cond48 s.variant i.toNat = true ∧ p.toNat % 48 = 0 := by
  simp [longShape, h, long_countersOk_iff]

theorem longShape_fold3 {s : State} (h : s.phase = Phase.fold3) :
    longShape s = true ↔ ∃ n i p, Counters s n i p ∧ cond48 s.variant i.toNat = false ∧ p.toNat % 48 = 0 ∧
      (s.variant.incl48 = true ∨ 1 ≤ i.toNat) := by
  simp [longShape, h, long_countersOk_iff, and_assoc]

theorem longShape_blk16 {s : State} (h : s.phase = Phase.blk16) :
    longShape s = true ↔ ∃ n i p, Counters s n i p ∧ 16 < i.toNat ∧ wholeBlocks s.variant n.toNat = false := by
  simp [longShape, h, long_countersOk_iff]

theorem longShape_after {s : State} (h : s.phase = Phase.tail ∨ s.phase = Phase.final ∨ s.phase = Phase.done) :
    longShape s = true ↔ ∃ n i p, Counters s n i p ∧ leftAtTail s.variant n.toNat i.toNat = true := by
  rcases h with h | h | h <;> simp [longShape, h, long_countersOk_iff]

/-- While a call runs `S0` and `N` hold values and `RESULT` holds none. -/
def Running (s : State) : Prop := s.s0.isSome = true ∧ s.n.isSome = true ∧ s.result = none

theorem phaseShape_start {s : State} (h : s.phase = Phase.seedmix ∨ s.phase = Phase.dispatch) :
    phaseShape s = true ↔ Running s := by
  rcases h with h | h <;> simp [phaseShape, h, State.done, Running, and_assoc]

theorem phaseShape_class {s : State} {c : LengthClass} (h : s.phase = classPhase c) :
    phaseShape s = true ↔ Running s ∧ ∃ n, s.n = some n ∧ classOf n = c := by
  cases c <;> simp only [classPhase] at h <;>
    simp [phaseShape, h, State.done, Running, holds_iff, and_assoc, classOf_eq_c0, classOf_eq_c3, classOf_eq_c4,
      classOf_eq_clong]

theorem phaseShape_lanes {s : State} (h : s.phase = Phase.blk48 ∨ s.phase = Phase.fold3) :
    phaseShape s = true ↔ Running s ∧ s.s1.isSome = true ∧ s.s2.isSome = true ∧ longShape s = true := by
  rcases h with h | h <;> simp [phaseShape, h, State.done, Running, and_assoc]

theorem phaseShape_lane {s : State} (h : s.phase = Phase.blk16 ∨ s.phase = Phase.tail) :
    phaseShape s = true ↔ Running s ∧ longShape s = true := by
  rcases h with h | h <;> simp [phaseShape, h, State.done, Running, and_assoc]

/-- The length is that of a short key, or the counters are those of a long one (R140). -/
def ShortOrLong (s : State) : Prop := (∃ n, s.n = some n ∧ n.toNat ≤ 16) ∨ longShape s = true

theorem phaseShape_final {s : State} (h : s.phase = Phase.final) :
    phaseShape s = true ↔ Running s ∧ s.a.isSome = true ∧ s.b.isSome = true ∧ ShortOrLong s := by
  simp [phaseShape, h, State.done, Running, ShortOrLong, holds_iff, and_assoc]

theorem phaseShape_done {s : State} (h : s.phase = Phase.done) :
    phaseShape s = true ↔ s.s0.isSome = true ∧ s.n.isSome = true ∧ s.result.isSome = true ∧
      s.a.isSome = true ∧ s.b.isSome = true ∧ ShortOrLong s := by
  simp [phaseShape, h, State.done, ShortOrLong, holds_iff, and_assoc]

/-! ## The counters (R140, R141) -/

/-- Consuming `k` of the bytes left neither wraps `I` nor `P` (R141). -/
theorem Counters.toNat_advance {s : State} {n i p k : Word} (h : Counters s n i p) (hk : k.toNat ≤ i.toNat) :
    (i - k).toNat = i.toNat - k.toNat ∧ (p + k).toNat = p.toNat + k.toNat := by
  have hn := n.isLt
  have hsum := h.sum
  exact ⟨BitVec.toNat_sub_of_le hk, BitVec.toNat_add_of_lt (by omega)⟩

theorem Counters.advance {s t : State} {n i p k : Word} (h : Counters s n i p) (hk : k.toNat ≤ i.toNat)
    (h16 : k.toNat % 16 = 0) (hn : t.n = s.n) (hi : t.i = some (i - k)) (hp : t.p = some (p + k)) :
    Counters t n (i - k) (p + k) := by
  obtain ⟨ei, ep⟩ := h.toNat_advance hk
  have hsum := h.sum
  have hs16 := h.sixteen
  exact ⟨hn.trans h.hn, hi, hp, h.long, by omega, by omega⟩

theorem cond48_iff {V : VariantRecord} {i : Nat} : cond48 V i = true ↔ 48 < i ∨ i = 48 ∧ V.incl48 = true := by
  unfold cond48
  cases V.incl48
  · simp
  · simp; omega

theorem cond48_false_iff {V : VariantRecord} {i : Nat} :
    cond48 V i = false ↔ i < 48 ∨ i = 48 ∧ V.incl48 = false := by
  unfold cond48
  cases V.incl48
  · simp; omega
  · simp

theorem wholeBlocks_false_iff {V : VariantRecord} {n : Nat} :
    wholeBlocks V n = false ↔ V.incl48 = false ∨ n % 48 ≠ 0 := by
  simp [wholeBlocks, Decidable.imp_iff_not_or]

theorem leftAtTail_iff {V : VariantRecord} {n i : Nat} :
    leftAtTail V n i = true ↔ if V.incl48 = true ∧ n % 48 = 0 then i = 0 else 1 ≤ i ∧ i ≤ 16 := by
  simp only [leftAtTail, wholeBlocks, Bool.and_eq_true, decide_eq_true_eq]
  split <;> simp

/-! ## The loop conditions and what the stages leave (R131, R140) -/

theorem le_of_cond48 {V : VariantRecord} {i : Nat} (h : cond48 V i = true) : 48 ≤ i := by
  rcases cond48_iff.mp h with h | ⟨h, -⟩ <;> omega

/-- A `BLK48` step leaves a byte where the comparison is strict. -/
theorem left_of_cond48 {V : VariantRecord} {i : Nat} (h : cond48 V i = true) : V.incl48 = true ∨ 1 ≤ i - 48 := by
  rcases cond48_iff.mp h with h | ⟨-, h⟩
  · exact .inr (by omega)
  · exact .inl h

/-- A length too short for the 48-byte stage is not consumed by it. -/
theorem wholeBlocks_of_not_cond48 {V : VariantRecord} {n : Nat} (h17 : 17 ≤ n) (h : cond48 V n = false) :
    wholeBlocks V n = false := by
  rw [wholeBlocks_false_iff]
  rcases cond48_false_iff.mp h with h | ⟨-, h⟩
  · exact .inr (by omega)
  · exact .inl h

/-- After the 48-byte stage more than 16 bytes are left only where whole blocks do not consume the key. -/
theorem wholeBlocks_of_left {V : VariantRecord} {n i p : Nat} (hsum : p + i = n) (h48 : p % 48 = 0)
    (hc : cond48 V i = false) (h16 : 16 < i) : wholeBlocks V n = false := by
  rw [wholeBlocks_false_iff]
  rcases cond48_false_iff.mp hc with h | ⟨-, h⟩
  · exact .inr (by omega)
  · exact .inl h

/-- After the 48-byte stage at most 16 bytes are left, and none exactly where whole blocks consume the key. -/
theorem leftAtTail_of_fold {V : VariantRecord} {n i p : Nat} (hsum : p + i = n) (h48 : p % 48 = 0)
    (hleft : V.incl48 = true ∨ 1 ≤ i) (h16 : i ≤ 16) : leftAtTail V n i = true := by
  rw [leftAtTail_iff]
  split
  · omega
  · rename_i hw
    rcases hleft with h | h
    · have : n % 48 ≠ 0 := fun hn => hw ⟨h, hn⟩
      omega
    · omega

/-- The 16-byte stage leaves between 1 and 16 bytes. -/
theorem leftAtTail_of_not_wholeBlocks {V : VariantRecord} {n i : Nat} (hw : wholeBlocks V n = false) (h1 : 1 ≤ i)
    (h16 : i ≤ 16) : leftAtTail V n i = true := by
  simp [leftAtTail, hw, h1, h16]

/-! ## Each sequencer step keeps the phase's shape -/

theorem execSeedmix_shape {s t : State} (hp : s.phase = Phase.seedmix) (hs : phaseShape s = true)
    (h : execSeedmix s = .next t) : phaseShape t = true := by
  obtain ⟨-, hn, hr⟩ := (phaseShape_start (.inl hp)).mp hs
  obtain ⟨s0, -, rfl⟩ := execSeedmix_next.mp h
  exact (phaseShape_start (.inr rfl)).mpr ⟨rfl, hn, hr⟩

theorem execDispatch_shape {s t : State} (hp : s.phase = Phase.dispatch) (hs : phaseShape s = true)
    (h : execDispatch s = .next t) : phaseShape t = true := by
  have hrun := (phaseShape_start (.inr hp)).mp hs
  obtain ⟨n, hn, rfl⟩ := execDispatch_next.mp h
  exact (phaseShape_class rfl).mpr ⟨hrun, n, hn, rfl⟩

theorem execLd0_shape {s t : State} (hp : s.phase = classPhase .c0) (hs : phaseShape s = true)
    (h : execLd0 s = .next t) : phaseShape t = true := by
  obtain ⟨hrun, n, hn, hc⟩ := (phaseShape_class hp).mp hs
  have hlen := classOf_eq_c0.mp hc
  obtain ⟨s0, -, rfl⟩ := execLd0_next.mp h
  exact (phaseShape_final rfl).mpr ⟨hrun, rfl, rfl, .inl ⟨n, hn, by omega⟩⟩

theorem execLd3_shape {s t : State} (hp : s.phase = classPhase .c3) (hs : phaseShape s = true)
    (h : execLd3 s = .next t) : phaseShape t = true := by
  obtain ⟨hrun, n, hn, hc⟩ := (phaseShape_class hp).mp hs
  have hlen := classOf_eq_c3.mp hc
  obtain ⟨s0, -, _, -, x, -, rfl⟩ := execLd3_next.mp h
  exact (phaseShape_final rfl).mpr ⟨hrun, rfl, rfl, .inl ⟨n, hn, by omega⟩⟩

theorem execLd4_shape {s t : State} (hp : s.phase = classPhase .c4) (hs : phaseShape s = true)
    (h : execLd4 s = .next t) : phaseShape t = true := by
  obtain ⟨hrun, n, hn, hc⟩ := (phaseShape_class hp).mp hs
  have hlen := classOf_eq_c4.mp hc
  obtain ⟨s0, -, _, -, w, -, x, -, y, -, rfl⟩ := execLd4_next.mp h
  exact (phaseShape_final rfl).mpr ⟨hrun, rfl, rfl, .inl ⟨n, hn, hlen.2⟩⟩

theorem execLongent_shape {s t : State} (hp : s.phase = classPhase .clong) (hs : phaseShape s = true)
    (h : execLongent s = .next t) : phaseShape t = true := by
  obtain ⟨hrun, n', hn', hc⟩ := (phaseShape_class hp).mp hs
  have hlen := classOf_eq_clong.mp hc
  obtain ⟨n, hn, hstage⟩ := execLongent_next.mp h
  obtain rfl : n' = n := Option.some.inj (hn'.symm.trans hn)
  split at hstage
  · rename_i hcond
    obtain ⟨s0, -, rfl⟩ := hstage
    have hcnt : Counters { s with i := some n', p := some 0, s1 := some s0, s2 := some s0, phase := Phase.blk48 }
        n' n' 0 := ⟨hn, rfl, rfl, hlen, by simp, by simp⟩
    exact (phaseShape_lanes (.inl rfl)).mpr ⟨hrun, rfl, rfl, (longShape_blk48 rfl).mpr ⟨_, _, _, hcnt, hcond, rfl⟩⟩
  · rename_i hcond
    subst hstage
    have hcnt : Counters { s with i := some n', p := some 0, phase := Phase.blk16 } n' n' 0 :=
      ⟨hn, rfl, rfl, hlen, by simp, by simp⟩
    exact (phaseShape_lane (.inl rfl)).mpr ⟨hrun, (longShape_blk16 rfl).mpr ⟨_, _, _, hcnt, by omega,
      wholeBlocks_of_not_cond48 hlen (Bool.eq_false_of_not_eq_true hcond)⟩⟩

theorem execBlk48_shape {s t : State} (hp : s.phase = Phase.blk48) (hs : phaseShape s = true)
    (h : execBlk48 s = .next t) : phaseShape t = true := by
  obtain ⟨⟨-, hn, hr⟩, -, -, hlong⟩ := (phaseShape_lanes (.inl hp)).mp hs
  obtain ⟨n, i, p, hcnt, hc, h48⟩ := (longShape_blk48 hp).mp hlong
  obtain ⟨_, -, _, -, _, -, i', hi, p', hp', _, -, t0, -, t1, -, t2, -, rfl⟩ := execBlk48_next.mp h
  obtain rfl : i = i' := Option.some.inj (hcnt.hi.symm.trans hi)
  obtain rfl : p = p' := Option.some.inj (hcnt.hp.symm.trans hp')
  have hi48 : (48 : Word).toNat ≤ i.toNat := le_of_cond48 hc
  obtain ⟨ei, ep⟩ := hcnt.toNat_advance hi48
  have hp48 : (p + 48).toNat % 48 = 0 := by rw [ep, Nat.add_mod, h48]; rfl
  by_cases hc' : cond48 s.variant (i - 48).toNat = true
  · simp only [hc', if_true]
    exact (phaseShape_lanes (.inl rfl)).mpr ⟨⟨rfl, hn, hr⟩, rfl, rfl, (longShape_blk48 rfl).mpr
      ⟨n, i - 48, p + 48, hcnt.advance hi48 rfl rfl rfl rfl, hc', hp48⟩⟩
  · simp only [hc', Bool.false_eq_true, if_false]
    refine (phaseShape_lanes (.inr rfl)).mpr ⟨⟨rfl, hn, hr⟩, rfl, rfl, (longShape_fold3 rfl).mpr
      ⟨n, i - 48, p + 48, hcnt.advance hi48 rfl rfl rfl rfl, Bool.eq_false_of_not_eq_true hc', hp48, ?_⟩⟩
    exact ei ▸ left_of_cond48 hc

theorem execFold3_shape {s t : State} (hp : s.phase = Phase.fold3) (hs : phaseShape s = true)
    (h : execFold3 s = .next t) : phaseShape t = true := by
  obtain ⟨⟨-, hn, hr⟩, -, -, hlong⟩ := (phaseShape_lanes (.inr hp)).mp hs
  obtain ⟨n, i, p, ⟨cn, ci, cp, c17, csum, c16⟩, hc, h48, hleft⟩ := (longShape_fold3 hp).mp hlong
  obtain ⟨_, -, _, -, _, -, i', hi, rfl⟩ := execFold3_next.mp h
  obtain rfl : i = i' := Option.some.inj (ci.symm.trans hi)
  by_cases h16 : 16 < i.toNat
  · simp only [h16, if_true]
    exact (phaseShape_lane (.inl rfl)).mpr ⟨⟨rfl, hn, hr⟩, (longShape_blk16 rfl).mpr
      ⟨n, i, p, ⟨cn, ci, cp, c17, csum, c16⟩, h16, wholeBlocks_of_left csum h48 hc h16⟩⟩
  · simp only [h16, if_false]
    exact (phaseShape_lane (.inr rfl)).mpr ⟨⟨rfl, hn, hr⟩, (longShape_after (.inl rfl)).mpr
      ⟨n, i, p, ⟨cn, ci, cp, c17, csum, c16⟩, leftAtTail_of_fold csum h48 hleft (by omega)⟩⟩

theorem execBlk16_shape {s t : State} (hp : s.phase = Phase.blk16) (hs : phaseShape s = true)
    (h : execBlk16 s = .next t) : phaseShape t = true := by
  obtain ⟨⟨-, hn, hr⟩, hlong⟩ := (phaseShape_lane (.inl hp)).mp hs
  obtain ⟨n, i, p, hcnt, h16, hw⟩ := (longShape_blk16 hp).mp hlong
  obtain ⟨_, -, i', hi, p', hp', _, -, t0, -, rfl⟩ := execBlk16_next.mp h
  obtain rfl : i = i' := Option.some.inj (hcnt.hi.symm.trans hi)
  obtain rfl : p = p' := Option.some.inj (hcnt.hp.symm.trans hp')
  have hi16 : (16 : Word).toNat ≤ i.toNat := h16.le
  have ei : (i - 16).toNat = i.toNat - 16 := (hcnt.toNat_advance hi16).1
  by_cases h16' : 16 < (i - 16).toNat
  · simp only [h16', if_true]
    exact (phaseShape_lane (.inl rfl)).mpr ⟨⟨rfl, hn, hr⟩, (longShape_blk16 rfl).mpr
      ⟨n, i - 16, p + 16, hcnt.advance hi16 rfl rfl rfl rfl, h16', hw⟩⟩
  · simp only [h16', if_false]
    exact (phaseShape_lane (.inr rfl)).mpr ⟨⟨rfl, hn, hr⟩, (longShape_after (.inl rfl)).mpr
      ⟨n, i - 16, p + 16, hcnt.advance hi16 rfl rfl rfl rfl,
        leftAtTail_of_not_wholeBlocks hw (by omega) (by omega)⟩⟩

/-- From `TAIL` on nothing writes `VAR` or a counter. -/
theorem longShape_after_congr {s t : State} (hs : s.phase = Phase.tail ∨ s.phase = Phase.final ∨ s.phase = Phase.done)
    (ht : t.phase = Phase.tail ∨ t.phase = Phase.final ∨ t.phase = Phase.done)
    (hv : t.var = s.var) (hn : t.n = s.n) (hi : t.i = s.i) (hp : t.p = s.p) (h : longShape s = true) :
    longShape t = true := by
  obtain ⟨n, i, p, c, hleft⟩ := (longShape_after hs).mp h
  refine (longShape_after ht).mpr ⟨n, i, p, ⟨hn.trans c.hn, hi.trans c.hi, hp.trans c.hp, c.long, c.sum, c.sixteen⟩, ?_⟩
  rwa [State.variant, hv]

theorem execTail_shape {s t : State} (hp : s.phase = Phase.tail) (hs : phaseShape s = true)
    (h : execTail s = .next t) : phaseShape t = true := by
  obtain ⟨hrun, hlong⟩ := (phaseShape_lane (.inr hp)).mp hs
  obtain ⟨_, -, _, -, x, -, y, -, rfl⟩ := execTail_next.mp h
  exact (phaseShape_final rfl).mpr ⟨hrun, rfl, rfl,
    .inr (longShape_after_congr (.inl hp) (.inr (.inl rfl)) rfl rfl rfl rfl hlong)⟩

theorem execFinal_shape {s t : State} (hp : s.phase = Phase.final) (hs : phaseShape s = true)
    (h : execFinal s = .next t) : phaseShape t = true := by
  obtain ⟨⟨h0, hn, -⟩, -, -, hlen⟩ := (phaseShape_final hp).mp hs
  obtain ⟨a, -, b, -, n, -, rfl⟩ := execFinal_next.mp h
  exact (phaseShape_done rfl).mpr ⟨h0, hn, rfl, rfl, rfl,
    hlen.imp_right (longShape_after_congr (.inr (.inl hp)) (.inr (.inr rfl)) rfl rfl rfl rfl)⟩

/-- Every sequencer step keeps the invariant (R140, R163, R206). -/
theorem sequencerStep_inv {s t : State} (hinv : s.Inv) (h : sequencerStep s = .next t) : t.Inv := by
  obtain ⟨hwf, hs⟩ := hinv
  obtain ⟨-, -, -, -, -, hkey, -⟩ := sequencerStep_frame h
  refine ⟨by rwa [hkey], ?_⟩
  cases sequencerStep_move h with
  | persists _ ht => rwa [ht]
  | seedmix hp he => exact execSeedmix_shape hp hs he
  | dispatch hp he => exact execDispatch_shape hp hs he
  | ld0 hp he => exact execLd0_shape hp hs he
  | ld3 hp he => exact execLd3_shape hp hs he
  | ld4 hp he => exact execLd4_shape hp hs he
  | longent hp he => exact execLongent_shape hp hs he
  | blk48 hp he => exact execBlk48_shape hp hs he
  | fold3 hp he => exact execFold3_shape hp hs he
  | blk16 hp he => exact execBlk16_shape hp hs he
  | tail hp he => exact execTail_shape hp hs he
  | final hp he => exact execFinal_shape hp hs he

end Sys2Proof.Machine

/-!
PROOFS. No sequencer step of a call with a complete key stops (spec/00_scope.md R19, spec/41_byte_readers.md R104).
-/

namespace Sys2Proof.Machine

/-! ## Each sequencer step of a call with a complete key completes (R104, R206) -/

/-- Every byte of the key holds a value (R55). -/
def KeyView.Complete (k : KeyView) : Prop := ∀ j, j < k.len → (k.byte j).isSome = true

theorem keyView_complete_iff {s : State} {n : Word} : (s.keyView n).Complete ↔ s.KeyComplete n := Iff.rfl

/-- The four windows of the 4..16 class end inside the key (R10), so both lanes have a value. -/
theorem lanes_ok {k : KeyView} {n : Word} {w : Windows} (hlen : k.len = n.toNat) (hk : k.Complete)
    (hw : window n = some w) : (∃ x, lane k w.ah w.al = .ok x) ∧ ∃ y, lane k w.bh w.bl = .ok y := by
  obtain ⟨h4, h16, hah, hal, hbh, hbl⟩ := window_some hw
  exact ⟨lane_ok (by omega) (by omega) hk, lane_ok (by omega) (by omega) hk⟩

/-- A running call's `S0` holds a value. -/
theorem Running.s0_some {s : State} (h : Running s) : ∃ s0, s.s0 = some s0 := Option.isSome_iff_exists.mp h.1

section Completes

variable {s : State} {n : Word}

theorem execLd3_completes (hp : s.phase = classPhase .c3) (hs : phaseShape s = true) (hn : s.n = some n)
    (hk : s.KeyComplete n) : ∃ t, execLd3 s = .next t := by
  obtain ⟨hrun, n', hn', hc⟩ := (phaseShape_class hp).mp hs
  obtain rfl : n = n' := Option.some.inj (hn.symm.trans hn')
  obtain ⟨h1, h3⟩ := classOf_eq_c3.mp hc
  obtain ⟨s0, hs0⟩ := hrun.s0_some
  obtain ⟨x, hx⟩ := read3_ok (k := s.keyView n) h1 h3 (Nat.le_refl _) hk
  exact ⟨_, execLd3_next.mpr ⟨s0, hs0, n, hn, x, hx, rfl⟩⟩

theorem execLd4_completes (hp : s.phase = classPhase .c4) (hs : phaseShape s = true) (hn : s.n = some n)
    (hk : s.KeyComplete n) : ∃ t, execLd4 s = .next t := by
  obtain ⟨hrun, n', hn', hc⟩ := (phaseShape_class hp).mp hs
  obtain rfl : n = n' := Option.some.inj (hn.symm.trans hn')
  obtain ⟨h4, h16⟩ := classOf_eq_c4.mp hc
  obtain ⟨s0, hs0⟩ := hrun.s0_some
  obtain ⟨w, hw⟩ := window_isSome h4 h16
  obtain ⟨⟨x, hx⟩, ⟨y, hy⟩⟩ := lanes_ok (k := s.keyView n) rfl hk hw
  exact ⟨_, execLd4_next.mpr ⟨s0, hs0, n, hn, w, windowsAt_variantOf.mpr hw, x, hx, y, hy, rfl⟩⟩

theorem execLongent_completes (hp : s.phase = classPhase .clong) (hs : phaseShape s = true) (hn : s.n = some n) :
    ∃ t, execLongent s = .next t := by
  obtain ⟨hrun, -⟩ := (phaseShape_class hp).mp hs
  obtain ⟨s0, hs0⟩ := hrun.s0_some
  by_cases hc : cond48 s.variant n.toNat = true
  · exact ⟨_, execLongent_next.mpr ⟨n, hn, (if_pos hc).mpr ⟨s0, hs0, rfl⟩⟩⟩
  · exact ⟨_, execLongent_next.mpr ⟨n, hn, (if_neg hc).mpr rfl⟩⟩

/-- `BLK48` reads 48 bytes from `P` on, and at least 48 are left (R141). -/
theorem execBlk48_completes (hp : s.phase = Phase.blk48) (hs : phaseShape s = true) (hn : s.n = some n)
    (hk : s.KeyComplete n) : ∃ t, execBlk48 s = .next t := by
  obtain ⟨hrun, h1, h2, hlong⟩ := (phaseShape_lanes (.inl hp)).mp hs
  obtain ⟨n', i, p, c, hc, -⟩ := (longShape_blk48 hp).mp hlong
  obtain rfl : n = n' := Option.some.inj (hn.symm.trans c.hn)
  obtain ⟨s0, hs0⟩ := hrun.s0_some
  obtain ⟨s1, hs1⟩ := Option.isSome_iff_exists.mp h1
  obtain ⟨s2, hs2⟩ := Option.isSome_iff_exists.mp h2
  have h48 := le_of_cond48 hc
  have hsum := c.sum
  have hlen : (s.keyView n).len < 2 ^ 64 := n.isLt
  have e1 : (p + 16).toNat = p.toNat + 16 := by bv_omega
  have e2 : (p + 32).toNat = p.toNat + 32 := by bv_omega
  have hin : p.toNat + 48 ≤ (s.keyView n).len := show p.toNat + 48 ≤ n.toNat by omega
  obtain ⟨t0, r0⟩ := subBlock_ok (o := p) s.variant.k1 s0 (by omega) hlen hk
  obtain ⟨t1, r1⟩ := subBlock_ok (o := p + 16) s.variant.k2 s1 (by omega) hlen hk
  obtain ⟨t2, r2⟩ := subBlock_ok (o := p + 32) s.variant.k3 s2 (by omega) hlen hk
  exact ⟨_, execBlk48_next.mpr
    ⟨s0, hs0, s1, hs1, s2, hs2, i, c.hi, p, c.hp, n, hn, t0, r0, t1, r1, t2, r2, rfl⟩⟩

theorem execFold3_completes (hp : s.phase = Phase.fold3) (hs : phaseShape s = true) : ∃ t, execFold3 s = .next t := by
  obtain ⟨hrun, h1, h2, hlong⟩ := (phaseShape_lanes (.inr hp)).mp hs
  obtain ⟨_, i, p, c, -⟩ := (longShape_fold3 hp).mp hlong
  obtain ⟨s0, hs0⟩ := hrun.s0_some
  obtain ⟨s1, hs1⟩ := Option.isSome_iff_exists.mp h1
  obtain ⟨s2, hs2⟩ := Option.isSome_iff_exists.mp h2
  exact ⟨_, execFold3_next.mpr ⟨s0, hs0, s1, hs1, s2, hs2, i, c.hi, rfl⟩⟩

theorem execBlk16_completes (hp : s.phase = Phase.blk16) (hs : phaseShape s = true) (hn : s.n = some n)
    (hk : s.KeyComplete n) : ∃ t, execBlk16 s = .next t := by
  obtain ⟨hrun, hlong⟩ := (phaseShape_lane (.inl hp)).mp hs
  obtain ⟨n', i, p, c, h16, -⟩ := (longShape_blk16 hp).mp hlong
  obtain rfl : n = n' := Option.some.inj (hn.symm.trans c.hn)
  obtain ⟨s0, hs0⟩ := hrun.s0_some
  have hsum := c.sum
  have hin : p.toNat + 16 ≤ (s.keyView n).len := show p.toNat + 16 ≤ n.toNat by omega
  obtain ⟨t0, r0⟩ := subBlock_ok s.variant.k1 s0 hin n.isLt hk
  exact ⟨_, execBlk16_next.mpr ⟨s0, hs0, i, c.hi, p, c.hp, n, hn, t0, r0, rfl⟩⟩

theorem execTail_completes (hp : s.phase = Phase.tail) (hs : phaseShape s = true) (hn : s.n = some n)
    (hk : s.KeyComplete n) : ∃ t, execTail s = .next t := by
  obtain ⟨hrun, hlong⟩ := (phaseShape_lane (.inr hp)).mp hs
  obtain ⟨n', i, p, c, -⟩ := (longShape_after (.inl hp)).mp hlong
  obtain rfl : n = n' := Option.some.inj (hn.symm.trans c.hn)
  obtain ⟨s0, hs0⟩ := hrun.s0_some
  have h17 := c.long
  have h16 : (n - 16).toNat + 8 ≤ (s.keyView n).len := show (n - 16).toNat + 8 ≤ n.toNat by bv_omega
  have h8 : (n - 8).toNat + 8 ≤ (s.keyView n).len := show (n - 8).toNat + 8 ≤ n.toNat by bv_omega
  obtain ⟨x, hx⟩ := read8_ok h16 hk
  obtain ⟨y, hy⟩ := read8_ok h8 hk
  exact ⟨_, execTail_next.mpr ⟨s0, hs0, n, hn, x, hx, y, hy, rfl⟩⟩

theorem execFinal_completes (hp : s.phase = Phase.final) (hs : phaseShape s = true) (hn : s.n = some n) :
    ∃ t, execFinal s = .next t := by
  obtain ⟨-, ha, hb, -⟩ := (phaseShape_final hp).mp hs
  obtain ⟨a, ha⟩ := Option.isSome_iff_exists.mp ha
  obtain ⟨b, hb⟩ := Option.isSome_iff_exists.mp hb
  exact ⟨_, execFinal_next.mpr ⟨a, ha, b, hb, n, hn, rfl⟩⟩

/-- On the sequencer's turn the operation `PHASE` names is carried out (R165 a). -/
theorem sequencerStep_of_decode {i : Instr} (h : decode (.phase s.phase) = .instr i) : sequencerStep s = exec i s := by
  simp only [sequencerStep, h]

/-- In a call whose key is complete the sequencer's step answers a next state (R19). -/
theorem sequencerStep_completes (hs : phaseShape s = true) (hbusy : s.busy = true) (hn : s.n = some n)
    (hk : s.KeyComplete n) : ∃ t, sequencerStep s = .next t := by
  obtain ⟨i, hi⟩ := decode_phase_of_busy hbusy
  rw [sequencerStep_of_decode hi]
  have hp := decode_phase_code hi
  cases i <;> simp only [encode, Code.phase.injEq, reduceCtorEq] at hp
  case seedmix =>
    obtain ⟨s0, hs0⟩ := ((phaseShape_start (.inl hp.symm)).mp hs).s0_some
    exact ⟨_, execSeedmix_next.mpr ⟨s0, hs0, rfl⟩⟩
  case dispatch => exact ⟨_, execDispatch_next.mpr ⟨n, hn, rfl⟩⟩
  case ld0 =>
    obtain ⟨hrun, -⟩ := (phaseShape_class (c := .c0) hp.symm).mp hs
    obtain ⟨s0, hs0⟩ := hrun.s0_some
    exact ⟨_, execLd0_next.mpr ⟨s0, hs0, rfl⟩⟩
  case ld3 => exact execLd3_completes hp.symm hs hn hk
  case ld4 => exact execLd4_completes hp.symm hs hn hk
  case longent => exact execLongent_completes hp.symm hs hn
  case blk48 => exact execBlk48_completes hp.symm hs hn hk
  case fold3 => exact execFold3_completes hp.symm hs
  case blk16 => exact execBlk16_completes hp.symm hs hn hk
  case tail => exact execTail_completes hp.symm hs hn hk
  case final => exact execFinal_completes hp.symm hs hn

end Completes

/-- Settles O42: the step completes by the shape its phase gives, keeps that shape, and writes neither `N` nor the
key. -/
theorem noStepOfACallStops : Obligations.NoStepOfACallStops := by
  intro s n hinv hbusy hnext hn hk
  obtain ⟨rest, hstep⟩ := step_of_sequencerNext hnext
  have hinv' : State.Inv { s with turns := rest } := hinv
  obtain ⟨t, ht⟩ := sequencerStep_completes hinv'.2 hbusy hn hk
  obtain ⟨-, -, htn, -, -, hkey, -⟩ := sequencerStep_frame ht
  refine ⟨t, hstep.trans ht, sequencerStep_inv hinv' ht, htn.trans hn, ?_⟩
  intro o ho
  rw [hkey]
  exact hk o ho

end Sys2Proof.Machine

/-!
PROOFS. The reference function of spec/45_call_sequence.md R161: when it has a value, and that it
has one for every complete key.
-/

namespace Sys2Proof.Machine

/-! ## When the reference function has a value (R137, R161) -/

theorem stage16_of_le {V : VariantRecord} {k : KeyView} {fuel : Nat} {s0 : Word} {i p : Nat} (h : i ≤ 16) :
    stage16 V k fuel s0 i p = .ok s0 := by
  cases fuel with
  | zero => rfl
  | succ fuel => rw [stage16, if_neg (by omega)]

theorem stage16_succ_ok_iff {V : VariantRecord} {k : KeyView} {fuel : Nat} {s0 t : Word} {i p : Nat} (h : 16 < i) :
    stage16 V k (fuel + 1) s0 i p = .ok t ↔
      ∃ t0, mixAt k p V.k1 s0 = .ok t0 ∧ stage16 V k fuel t0 (i - 16) (p + 16) = .ok t := by
  rw [stage16, if_pos h]
  cases mixAt k p V.k1 s0 <;> simp

theorem stage48_of_not_cond48 {V : VariantRecord} {k : KeyView} {fuel : Nat} {l : Lanes}
    (h : cond48 V l.i = false) : stage48 V k fuel l = .ok l := by
  cases fuel with
  | zero => rfl
  | succ fuel => rw [stage48, if_neg (by simp [h])]

theorem stage48_succ_ok_iff {V : VariantRecord} {k : KeyView} {fuel : Nat} {l l' : Lanes}
    (h : cond48 V l.i = true) :
    stage48 V k (fuel + 1) l = .ok l' ↔
      ∃ t0, mixAt k l.p V.k1 l.s0 = .ok t0 ∧ ∃ t1, mixAt k (l.p + 16) V.k2 l.s1 = .ok t1 ∧
      ∃ t2, mixAt k (l.p + 32) V.k3 l.s2 = .ok t2 ∧
        stage48 V k fuel { s0 := t0, s1 := t1, s2 := t2, i := l.i - 48, p := l.p + 48 } = .ok l' := by
  rw [stage48, if_pos h]
  cases mixAt k l.p V.k1 l.s0 with
  | error e => simp
  | ok t0 =>
    cases mixAt k (l.p + 16) V.k2 l.s1 with
    | error e => simp
    | ok t1 => cases mixAt k (l.p + 32) V.k3 l.s2 <;> simp

theorem longPath_ok_iff {V : VariantRecord} {s a b : Word} {k : KeyView} :
    longPath V s k = .ok (a, b) ↔
      ∃ l, stage48 V k k.len { s0 := s, s1 := s, s2 := s, i := k.len, p := 0 } = .ok l ∧
      ∃ t, stage16 V k k.len (if cond48 V k.len then l.s0 ^^^ l.s1 ^^^ l.s2 else l.s0) l.i l.p = .ok t ∧
      ∃ x, read8 k (k.len - 16) = .ok x ∧ ∃ y, read8 k (k.len - 8) = .ok y ∧ x ^^^ V.k1 = a ∧ y ^^^ t = b := by
  unfold longPath
  cases stage48 V k k.len { s0 := s, s1 := s, s2 := s, i := k.len, p := 0 } with
  | error e => simp
  | ok l =>
    simp only [Except.ok.injEq, exists_eq_left']
    cases stage16 V k k.len (if cond48 V k.len then l.s0 ^^^ l.s1 ^^^ l.s2 else l.s0) l.i l.p with
    | error e => simp
    | ok t =>
      cases read8 k (k.len - 16) with
      | error e => simp
      | ok x => cases read8 k (k.len - 8) <;> simp

theorem classLanes_c0 {V : VariantRecord} {s : Word} {k : KeyView} (h : classOf (BitVec.ofNat 64 k.len) = .c0) :
    classLanes V s k = .ok (V.k1, s) := by
  simp only [classLanes, h]

theorem classLanes_c3_ok_iff {V : VariantRecord} {s a b : Word} {k : KeyView}
    (h : classOf (BitVec.ofNat 64 k.len) = .c3) :
    classLanes V s k = .ok (a, b) ↔ ∃ x, read3 k (BitVec.ofNat 64 k.len) = .ok x ∧ x ^^^ V.k1 = a ∧ s = b := by
  simp only [classLanes, h]
  cases read3 k (BitVec.ofNat 64 k.len) <;> simp

theorem classLanes_c4_ok_iff {V : VariantRecord} {s a b : Word} {k : KeyView}
    (h : classOf (BitVec.ofNat 64 k.len) = .c4) :
    classLanes V s k = .ok (a, b) ↔ ∃ w, windowsAt V (BitVec.ofNat 64 k.len) = .ok w ∧
      ∃ x, lane k w.ah w.al = .ok x ∧ ∃ y, lane k w.bh w.bl = .ok y ∧ x ^^^ V.k1 = a ∧ y ^^^ s = b := by
  simp only [classLanes, h]
  cases windowsAt V (BitVec.ofNat 64 k.len) with
  | error e => simp
  | ok w =>
    simp only [Except.ok.injEq, exists_eq_left']
    cases lane k w.ah w.al with
    | error e => simp
    | ok x => cases lane k w.bh w.bl <;> simp

theorem classLanes_clong {V : VariantRecord} {s : Word} {k : KeyView} (h : classOf (BitVec.ofNat 64 k.len) = .clong) :
    classLanes V s k = longPath V s k := by
  simp only [classLanes, h]

theorem wyhashCore_ok_iff {V : VariantRecord} {seed r : Word} {k : KeyView} :
    wyhashCore V seed k = .ok r ↔
      ∃ a b, classLanes V (deriveSeed V seed) k = .ok (a, b) ∧ finalize V a b (BitVec.ofNat 64 k.len) = r := by
  unfold wyhashCore
  cases classLanes V (deriveSeed V seed) k with
  | error e => simp
  | ok ab => simp [Prod.ext_iff]

/-! ## The reference function has a value for every complete key (R19, R104) -/

section Total

variable {V : VariantRecord} {k : KeyView}

theorem mixAt_ok {o : Nat} (secret acc : Word) (hk : k.Complete) (ho : o + 16 ≤ k.len) :
    ∃ t, mixAt k o secret acc = .ok t := by
  obtain ⟨x, hx⟩ := read8_ok (k := k) (o := o) (by omega) hk
  obtain ⟨y, hy⟩ := read8_ok (k := k) (o := o + 8) (by omega) hk
  exact ⟨mix (x ^^^ secret) (y ^^^ acc), by simp only [mixAt, hx, hy]⟩

theorem stage16_ok (hk : k.Complete) (fuel : Nat) :
    ∀ {s0 : Word} {i p : Nat}, p + i = k.len → ∃ t, stage16 V k fuel s0 i p = .ok t := by
  induction fuel with
  | zero => exact fun _ => ⟨_, rfl⟩
  | succ fuel ih =>
    intro s0 i p hsum
    by_cases h16 : 16 < i
    · obtain ⟨t0, ht0⟩ := mixAt_ok (o := p) V.k1 s0 hk (by omega)
      obtain ⟨t, ht⟩ := ih (s0 := t0) (i := i - 16) (p := p + 16) (by omega)
      exact ⟨t, (stage16_succ_ok_iff h16).mpr ⟨t0, ht0, ht⟩⟩
    · exact ⟨s0, stage16_of_le (by omega)⟩

theorem stage48_ok (hk : k.Complete) (fuel : Nat) :
    ∀ {l : Lanes}, l.p + l.i = k.len → ∃ l', stage48 V k fuel l = .ok l' ∧ l'.p + l'.i = k.len := by
  induction fuel with
  | zero => exact fun {l} hsum => ⟨l, rfl, hsum⟩
  | succ fuel ih =>
    intro l hsum
    cases hc : cond48 V l.i with
    | true =>
      have h48 := le_of_cond48 hc
      obtain ⟨t0, h0⟩ := mixAt_ok (o := l.p) V.k1 l.s0 hk (by omega)
      obtain ⟨t1, h1⟩ := mixAt_ok (o := l.p + 16) V.k2 l.s1 hk (by omega)
      obtain ⟨t2, h2⟩ := mixAt_ok (o := l.p + 32) V.k3 l.s2 hk (by omega)
      obtain ⟨l', hl', hsum'⟩ := ih (l := { s0 := t0, s1 := t1, s2 := t2, i := l.i - 48, p := l.p + 48 })
        (show l.p + 48 + (l.i - 48) = k.len by omega)
      exact ⟨l', (stage48_succ_ok_iff hc).mpr ⟨t0, h0, t1, h1, t2, h2, hl'⟩, hsum'⟩
    | false => exact ⟨l, stage48_of_not_cond48 hc, hsum⟩

theorem longPath_ok (s : Word) (hk : k.Complete) (h16 : 16 ≤ k.len) : ∃ ab, longPath V s k = .ok ab := by
  obtain ⟨l, hl, hsum⟩ := stage48_ok (V := V) hk k.len (l := { s0 := s, s1 := s, s2 := s, i := k.len, p := 0 })
    (Nat.zero_add _)
  obtain ⟨t, ht⟩ := stage16_ok (V := V) hk k.len
    (s0 := if cond48 V k.len then l.s0 ^^^ l.s1 ^^^ l.s2 else l.s0) hsum
  obtain ⟨x, hx⟩ := read8_ok (k := k) (o := k.len - 16) (by omega) hk
  obtain ⟨y, hy⟩ := read8_ok (k := k) (o := k.len - 8) (by omega) hk
  exact ⟨(x ^^^ V.k1, y ^^^ t), longPath_ok_iff.mpr ⟨l, hl, t, ht, x, hx, y, hy, rfl, rfl⟩⟩

theorem classLanes_ok (var : BitVec 1) (s : Word) (hk : k.Complete) (hlen : k.len < 2 ^ 64) :
    ∃ ab, classLanes (variantOf var) s k = .ok ab := by
  have hn : (BitVec.ofNat 64 k.len).toNat = k.len := Nat.mod_eq_of_lt hlen
  cases hc : classOf (BitVec.ofNat 64 k.len) with
  | c0 => exact ⟨_, classLanes_c0 hc⟩
  | c3 =>
    obtain ⟨h1, h3⟩ := classOf_eq_c3.mp hc
    obtain ⟨x, hx⟩ := read3_ok h1 h3 hn.le hk
    exact ⟨_, (classLanes_c3_ok_iff hc).mpr ⟨x, hx, rfl, rfl⟩⟩
  | c4 =>
    obtain ⟨h4, h16⟩ := classOf_eq_c4.mp hc
    obtain ⟨w, hw⟩ := window_isSome h4 h16
    obtain ⟨⟨x, hx⟩, ⟨y, hy⟩⟩ := lanes_ok hn.symm hk hw
    exact ⟨_, (classLanes_c4_ok_iff hc).mpr ⟨w, windowsAt_variantOf.mpr hw, x, hx, y, hy, rfl, rfl⟩⟩
  | clong =>
    have h17 := classOf_eq_clong.mp hc
    rw [classLanes_clong hc]
    exact longPath_ok s hk (by omega)

/-- No read of R161's function falls outside a complete key shorter than 2^64 bytes. -/
theorem wyhashCore_ok (var : BitVec 1) (seed : Word) (hk : k.Complete) (hlen : k.len < 2 ^ 64) :
    ∃ r, wyhashCore (variantOf var) seed k = .ok r := by
  obtain ⟨⟨a, b⟩, hab⟩ := classLanes_ok var (deriveSeed (variantOf var) seed) hk hlen
  exact ⟨_, wyhashCore_ok_iff.mpr ⟨a, b, hab, rfl⟩⟩

end Total

theorem keyOfList_complete (key : List Byte) : (keyOfList key).Complete := by
  intro j hj
  have hj' : j < key.length := hj
  simp [keyOfList, hj']

/-- The words of `START.A` and `START.B` (R75). -/
theorem startWord_eq (var : BitVec 1) : startWord var = if var = 0#1 then 0x01#8 else 0x11#8 := by
  revert var
  decide

/-- Settles O45: the reference function is total on complete keys shorter than 2^64 bytes, and a list is one. -/
theorem everyInputHasAResult : Obligations.EveryInputHasAResult := by
  intro var seed key
  constructor
  · intro hlen
    obtain ⟨r, hr⟩ := wyhashCore_ok (k := keyOfList key) var (norm64 seed) (keyOfList_complete key) hlen
    have hvalue : hashValue var seed key = some r := by rw [hashValue, if_pos hlen, hr]
    exact ⟨by rw [hashTurns, if_pos hlen, startWord_eq]; rfl, r, hr, hvalue, by rw [hashHex, hvalue]; rfl⟩
  · intro hlen
    have hnot : ¬ key.length < 2 ^ 64 := by omega
    have hvalue : hashValue var seed key = none := by rw [hashValue, if_neg hnot]
    exact ⟨by rw [hashTurns, if_neg hnot], hvalue, by rw [hashHex, hvalue]; rfl⟩

end Sys2Proof.Machine

/-!
PROOFS. The sequencer stepping alone computes the reference function in the counted steps
(spec/45_call_sequence.md R162, R166); so the result depends on the variant, the seed and the key only
(spec/00_scope.md R18).
-/

namespace Sys2Proof.Machine

/-! ## Keys that read alike -/

/-- The bound and every read of the two keys agree. -/
structure ReadsAlike (k k' : KeyView) : Prop where
  len : k.len = k'.len
  mem : ∀ o count, memRead k o count = memRead k' o count

theorem KeyView.bytes_congr {k k' : KeyView} : ∀ {count o : Nat},
    (∀ j, j < count → k.byte (o + j) = k'.byte (o + j)) → k.bytes o count = k'.bytes o count
  | 0, _, _ => rfl
  | count + 1, o, h => by
    have head : k.byte o = k'.byte o := h 0 (by omega)
    have rest := KeyView.bytes_congr (k := k) (k' := k') (count := count) (o := o + 1) fun j hj => by
      rw [show o + 1 + j = o + (j + 1) by omega]
      exact h (j + 1) (by omega)
    simp only [KeyView.bytes, head, rest]

/-- Keys of one length whose bytes agree below it read alike: no read reaches further (R56). -/
theorem readsAlike_of_bytes {k k' : KeyView} (hlen : k.len = k'.len)
    (hbyte : ∀ o, o < k.len → k.byte o = k'.byte o) : ReadsAlike k k' := by
  refine ⟨hlen, fun o count => ?_⟩
  by_cases hin : o + count ≤ k.len
  · have hbytes : k.bytes o count = k'.bytes o count := KeyView.bytes_congr fun j hj => hbyte _ (by omega)
    simp only [memRead, hbytes, hlen]
  · rw [memRead_outside (by omega), memRead_outside (by omega), hlen]

section ReadsAlike

variable {k k' : KeyView} (h : ReadsAlike k k')

include h

theorem ReadsAlike.read8_eq (o : Nat) : read8 k o = read8 k' o := by simp only [read8, h.mem]

theorem ReadsAlike.lane_eq (high low : Word) : lane k high low = lane k' high low := by
  simp only [lane, read4, h.mem]

theorem ReadsAlike.read3_eq (len : Word) : read3 k len = read3 k' len := by
  simp only [read3, read1, h.mem]

/-- The machine's sub-block is the reference's where its offsets do not wrap (R141). -/
theorem ReadsAlike.subBlock_eq {o : Word} (ho : o.toNat + 16 ≤ k.len) (hk : k.len < 2 ^ 64) (secret acc : Word) :
    subBlock k o secret acc = mixAt k' o.toNat secret acc := by
  have e8 : (o + 8).toNat = o.toNat + 8 := by bv_omega
  cases hx : read8 k' o.toNat with
  | error e => simp only [subBlock, mixAt, h.read8_eq, hx]
  | ok x => cases hy : read8 k' (o.toNat + 8) <;> simp only [subBlock, mixAt, e8, h.read8_eq, hx, hy]

end ReadsAlike

/-! ## The sequencer stepping alone (R162) -/

/-- The sequencer, stepping alone from `s`, is busy for exactly `count` steps and then done, with the result `r` and
with `VAR` and `PERR` as they were (R162, R166). -/
structure Finishes (count : Nat) (s : State) (r : Word) : Prop where
  busy : ∀ j, j < count → ∃ u : State, Sys2Proof.core.run j s = .next u ∧ u.busy = true
  ends : ∃ t : State, Sys2Proof.core.run count s = .next t ∧ t.phase = Phase.done ∧ t.result = some r ∧
    t.var = s.var ∧ t.perr = s.perr

theorem run_succ {s u : State} (h : step s = .next u) (j : Nat) :
    Sys2Proof.core.run (j + 1) s = Sys2Proof.core.run j u := by
  have hcore : Sys2Proof.core.step s = .next u := h
  simp only [Host.Core.run, hcore]

theorem finishes_zero {s : State} {r : Word} (hp : s.phase = Phase.done) (hr : s.result = some r) : Finishes 0 s r :=
  ⟨fun _ hj => absurd hj (Nat.not_lt_zero _), s, rfl, hp, hr, rfl, rfl⟩

theorem Finishes.cons {count : Nat} {s u : State} {r : Word} (hf : Finishes count u r) (hbusy : s.busy = true)
    (hturns : s.turns = []) (hstep : sequencerStep s = .next u) : Finishes (count + 1) s r := by
  have hs : step s = .next u := by simpa only [step, takeTurn, hturns] using hstep
  obtain ⟨hvar, hperr, -⟩ := sequencerStep_frame hstep
  obtain ⟨t, ht, hp, hr, htv, hte⟩ := hf.ends
  refine ⟨fun j hj => ?_, t, (run_succ hs count).trans ht, hp, hr, htv.trans hvar, hte.trans hperr⟩
  cases j with
  | zero => exact ⟨s, rfl, hbusy⟩
  | succ j =>
    obtain ⟨u', hu, hb⟩ := hf.busy j (by omega)
    exact ⟨u', (run_succ hs j).trans hu, hb⟩

/-- A call under the record `V` on a key of `n` bytes that reads like `k`, with no host action to come. -/
structure Alone (V : VariantRecord) (n : Word) (k : KeyView) (s : State) : Prop where
  turns : s.turns = []
  variant : s.variant = V
  hn : s.n = some n
  alike : ReadsAlike (s.keyView n) k

theorem Alone.len {V : VariantRecord} {n : Word} {k : KeyView} {s : State} (h : Alone V n k s) : k.len = n.toNat :=
  h.alike.len.symm

theorem Alone.ofNat_len {V : VariantRecord} {n : Word} {k : KeyView} {s : State} (h : Alone V n k s) :
    BitVec.ofNat 64 k.len = n := by
  rw [h.len, BitVec.ofNat_toNat, BitVec.setWidth_eq]

theorem Alone.step {V : VariantRecord} {n : Word} {k : KeyView} {s t : State} (h : Alone V n k s)
    (hstep : sequencerStep s = .next t) : Alone V n k t := by
  obtain ⟨hvar, -, htn, -, -, hkey, hturns⟩ := sequencerStep_frame hstep
  exact ⟨hturns.trans h.turns, by rw [State.variant, hvar]; exact h.variant, htn.trans h.hn,
    by rw [State.keyView, hkey]; exact h.alike⟩

/-- A code that selects an operation is that of a busy phase (R32, R72). -/
theorem busy_of_decode {s : State} {i : Instr} (h : decode (.phase s.phase) = .instr i) : s.busy = true := by
  have every : ∀ p : BitVec 4, decide (0x1#4 ≤ p ∧ p ≤ 0xB#4) = false →
      (match decode (.phase p) with
        | .instr _ => false
        | .rejected _ => true) = true := by decide
  by_contra hb
  have hs := every s.phase (Bool.eq_false_of_not_eq_true hb)
  simp [h] at hs

/-- The phase's step, then a run that finishes, is a run that finishes. -/
theorem Alone.finishes {V : VariantRecord} {n : Word} {k : KeyView} {s t : State} {i : Instr} {count : Nat} {r : Word}
    (h : Alone V n k s) (hd : decode (.phase s.phase) = .instr i) (he : exec i s = .next t)
    (hf : Alone V n k t → Finishes count t r) : Finishes (count + 1) s r := by
  have hstep : sequencerStep s = .next t := (sequencerStep_of_decode hd).trans he
  exact (hf (h.step hstep)).cons (busy_of_decode hd) h.turns hstep

/-! ## The step counts (R142, R166) -/

theorem blk48Steps_of_cond48 {V : VariantRecord} {i : Nat} (h : cond48 V i = true) :
    blk48Steps V i = blk48Steps V (i - 48) + 1 := by
  rw [cond48_iff] at h
  unfold blk48Steps
  split <;> rename_i hV
  · omega
  · simp only [hV, Bool.false_eq_true, and_false, or_false] at h
    omega

theorem blk48Steps_of_not_cond48 {V : VariantRecord} {i : Nat} (h : cond48 V i = false) : blk48Steps V i = 0 := by
  rw [cond48_false_iff] at h
  unfold blk48Steps
  split <;> rename_i hV
  · simp only [hV, Bool.true_eq_false, and_false, or_false] at h
    omega
  · omega

theorem blk16Steps_of_cond48 {V : VariantRecord} {i : Nat} (h : cond48 V i = true) :
    blk16Steps V i = blk16Steps V (i - 48) := by
  have h48 := le_of_cond48 h
  rw [blk16Steps, blk16Steps, bytesLeft, bytesLeft, blk48Steps_of_cond48 h]
  omega

theorem blk16Steps_of_not_cond48 {V : VariantRecord} {i : Nat} (h : cond48 V i = false) :
    blk16Steps V i = (i - 1) / 16 := by
  rw [blk16Steps, bytesLeft, blk48Steps_of_not_cond48 h, Nat.mul_zero, Nat.sub_zero]

theorem callSteps_of_short {V : VariantRecord} {n : Nat} (h : n ≤ 16) : callSteps V n = 4 := if_pos h

theorem callSteps_of_cond48 {V : VariantRecord} {n : Nat} (h : cond48 V n = true) :
    callSteps V n = blk48Steps V n + blk16Steps V n + 6 := by
  have h48 := le_of_cond48 h
  have hpos : 0 < blk48Steps V n := by rw [blk48Steps_of_cond48 h]; omega
  rw [callSteps, if_neg (by omega), if_pos hpos]
  omega

theorem callSteps_of_not_cond48 {V : VariantRecord} {n : Nat} (h17 : 17 ≤ n) (h : cond48 V n = false) :
    callSteps V n = (n - 1) / 16 + 5 := by
  rw [callSteps, if_neg (by omega), blk16Steps_of_not_cond48 h, blk48Steps_of_not_cond48 h]
  simp only [Nat.lt_irrefl, if_false]
  omega

theorem four_le_callSteps (V : VariantRecord) (n : Nat) : 4 ≤ callSteps V n := by
  unfold callSteps
  split <;> omega

/-! ## The machine computes the reference function, phase by phase (R161, R162) -/

/-- The last sixteen bytes of the key, as `TAIL` reads them (R136). -/
structure LastBytes (k : KeyView) (x y : Word) : Prop where
  long : 16 ≤ k.len
  low : read8 k (k.len - 16) = .ok x
  high : read8 k (k.len - 8) = .ok y

/-- The registers hold the variables of R137's 16-byte stage: the accumulator, the bytes left and the position. -/
structure AtChunk (n : Word) (s : State) (s0 : Word) (i p : Nat) : Prop where
  acc : s.s0 = some s0
  left : s.i.map BitVec.toNat = some i
  pos : s.p.map BitVec.toNat = some p
  sum : p + i = n.toNat

/-- The registers hold the variables of R137's 48-byte stage. -/
structure AtLanes (n : Word) (s : State) (l : Lanes) : Prop extends AtChunk n s l.s0 l.i l.p where
  lane1 : s.s1 = some l.s1
  lane2 : s.s2 = some l.s2

section Simulation

variable {V : VariantRecord} {n : Word} {k : KeyView} {s : State} {x y : Word}

theorem final_finishes {a b : Word} (h : Alone V n k s) (hp : s.phase = Phase.final) (ha : s.a = some a)
    (hb : s.b = some b) : Finishes 1 s (finalize V a b n) := by
  obtain rfl := h.variant
  exact h.finishes (i := .final) (by rw [hp]; rfl) (execFinal_next.mpr ⟨a, ha, b, hb, n, h.hn, rfl⟩)
    fun _ => finishes_zero rfl rfl

theorem tail_finishes {s0 : Word} (hxy : LastBytes k x y) (h : Alone V n k s) (hp : s.phase = Phase.tail)
    (h0 : s.s0 = some s0) : Finishes 2 s (finalize V (x ^^^ V.k1) (y ^^^ s0) n) := by
  obtain rfl := h.variant
  have h16 := hxy.long
  have hlen := h.len
  have e16 : (n - 16).toNat = k.len - 16 := by bv_omega
  have e8 : (n - 8).toNat = k.len - 8 := by bv_omega
  have hx : read8 (s.keyView n) (n - 16).toNat = .ok x := by rw [h.alike.read8_eq, e16, hxy.low]
  have hy : read8 (s.keyView n) (n - 8).toNat = .ok y := by rw [h.alike.read8_eq, e8, hxy.high]
  exact h.finishes (i := .tail) (by rw [hp]; rfl) (execTail_next.mpr ⟨s0, h0, n, h.hn, x, hx, y, hy, rfl⟩)
    fun ht => final_finishes ht rfl rfl rfl

/-- The exit of the 16-byte stage: with at most 16 bytes left the machine is at `TAIL`. -/
theorem stage16_exit_finishes {s0 t : Word} {fuel i p : Nat} (hxy : LastBytes k x y) (h : Alone V n k s)
    (hc : AtChunk n s s0 i p) (hi : i ≤ 16) (hp : s.phase = if 16 < i then Phase.blk16 else Phase.tail)
    (hstage : stage16 V k fuel s0 i p = .ok t) :
    Finishes ((i - 1) / 16 + 2) s (finalize V (x ^^^ V.k1) (y ^^^ t) n) := by
  rw [stage16_of_le hi] at hstage
  cases hstage
  rw [show (i - 1) / 16 = 0 by omega]
  exact tail_finishes hxy h (by rw [hp, if_neg (by omega)]) hc.acc

/-- A `BLK16` step is one iteration of R137's 16-byte stage. -/
theorem blk16_step {s0 t0 : Word} {i p : Nat} (h : Alone V n k s) (hc : AtChunk n s s0 i p) (hi : 16 < i)
    (hmix : mixAt k p V.k1 s0 = .ok t0) :
    ∃ u, execBlk16 s = .next u ∧ u.phase = (if 16 < i - 16 then Phase.blk16 else Phase.tail) ∧
      AtChunk n u t0 (i - 16) (p + 16) := by
  obtain ⟨h0, hiw, hpw, hsum⟩ := hc
  obtain ⟨iw, hsi, rfl⟩ := Option.map_eq_some_iff.mp hiw
  obtain ⟨pw, hsp, rfl⟩ := Option.map_eq_some_iff.mp hpw
  have ei : (iw - 16).toNat = iw.toNat - 16 := by bv_omega
  have ep : (pw + 16).toNat = pw.toNat + 16 := by bv_omega
  have hread : subBlock (s.keyView n) pw s.variant.k1 s0 = .ok t0 := by
    rw [h.alike.subBlock_eq (show pw.toNat + 16 ≤ n.toNat by omega) n.isLt, h.variant, hmix]
  exact ⟨_, execBlk16_next.mpr ⟨s0, h0, iw, hsi, pw, hsp, n, h.hn, t0, hread, rfl⟩, by simp only [ei],
    rfl, congrArg some ei, congrArg some ep, by omega⟩

/-- From the entry of the 16-byte stage with `i` bytes left: one step for each iteration of R137's loop, then `TAIL` and
`FINAL`. -/
theorem stage16_finishes {t : Word} (hxy : LastBytes k x y) (fuel : Nat) :
    ∀ {s : State} {s0 : Word} {i p : Nat}, Alone V n k s → AtChunk n s s0 i p → i ≤ fuel →
      s.phase = (if 16 < i then Phase.blk16 else Phase.tail) → stage16 V k fuel s0 i p = .ok t →
      Finishes ((i - 1) / 16 + 2) s (finalize V (x ^^^ V.k1) (y ^^^ t) n) := by
  induction fuel with
  | zero =>
    intro s s0 i p h hc hfuel hp hstage
    exact stage16_exit_finishes hxy h hc (by omega) hp hstage
  | succ fuel ih =>
    intro s s0 i p h hc hfuel hp hstage
    by_cases hi : 16 < i
    · obtain ⟨t0, hmix, hrest⟩ := (stage16_succ_ok_iff hi).mp hstage
      obtain ⟨u, hu, hup, huc⟩ := blk16_step h hc hi hmix
      rw [show (i - 1) / 16 + 2 = (i - 16 - 1) / 16 + 2 + 1 by omega]
      exact h.finishes (i := .blk16) (by rw [hp, if_pos hi]; rfl) hu fun ha => ih ha huc (by omega) hup hrest
    · exact stage16_exit_finishes hxy h hc (by omega) hp hstage

theorem fold3_finishes {t : Word} {l : Lanes} (hxy : LastBytes k x y) (h : Alone V n k s) (hl : AtLanes n s l)
    (hp : s.phase = Phase.fold3) (hstage : stage16 V k k.len (l.s0 ^^^ l.s1 ^^^ l.s2) l.i l.p = .ok t) :
    Finishes ((l.i - 1) / 16 + 3) s (finalize V (x ^^^ V.k1) (y ^^^ t) n) := by
  obtain ⟨⟨h0, hi, hpos, hsum⟩, h1, h2⟩ := hl
  have hfuel : l.i ≤ k.len := by rw [h.len]; omega
  obtain ⟨iw, hsi, hiw⟩ := Option.map_eq_some_iff.mp hi
  exact h.finishes (i := .fold3) (by rw [hp]; rfl)
    (execFold3_next.mpr ⟨l.s0, h0, l.s1, h1, l.s2, h2, iw, hsi, rfl⟩)
    fun ha => stage16_finishes hxy k.len ha ⟨rfl, hi, hpos, hsum⟩ hfuel (by rw [hiw]) hstage

/-- The exit of the 48-byte stage: where its condition fails the machine is at `FOLD3`. -/
theorem stage48_exit_finishes {t : Word} {fuel : Nat} {l l' : Lanes} (hxy : LastBytes k x y) (h : Alone V n k s)
    (hl : AtLanes n s l) (hc : cond48 V l.i = false)
    (hp : s.phase = if cond48 V l.i then Phase.blk48 else Phase.fold3) (hstage : stage48 V k fuel l = .ok l')
    (hrest : stage16 V k k.len (l'.s0 ^^^ l'.s1 ^^^ l'.s2) l'.i l'.p = .ok t) :
    Finishes (blk48Steps V l.i + blk16Steps V l.i + 3) s (finalize V (x ^^^ V.k1) (y ^^^ t) n) := by
  rw [stage48_of_not_cond48 hc] at hstage
  cases hstage
  rw [blk48Steps_of_not_cond48 hc, blk16Steps_of_not_cond48 hc, Nat.zero_add]
  rw [hc, if_neg Bool.false_ne_true] at hp
  exact fold3_finishes hxy h hl hp hrest

/-- A `BLK48` step is one iteration of R137's 48-byte stage. -/
theorem blk48_step {t0 t1 t2 : Word} {l : Lanes} (h : Alone V n k s) (hl : AtLanes n s l) (hc : cond48 V l.i = true)
    (m0 : mixAt k l.p V.k1 l.s0 = .ok t0) (m1 : mixAt k (l.p + 16) V.k2 l.s1 = .ok t1)
    (m2 : mixAt k (l.p + 32) V.k3 l.s2 = .ok t2) :
    ∃ u, execBlk48 s = .next u ∧ u.phase = (if cond48 V (l.i - 48) then Phase.blk48 else Phase.fold3) ∧
      AtLanes n u { s0 := t0, s1 := t1, s2 := t2, i := l.i - 48, p := l.p + 48 } := by
  obtain ⟨⟨h0, hi, hpos, hsum⟩, h1, h2⟩ := hl
  obtain ⟨iw, hsi, hiw⟩ := Option.map_eq_some_iff.mp hi
  obtain ⟨pw, hsp, hpw⟩ := Option.map_eq_some_iff.mp hpos
  obtain rfl := h.variant
  have h48 := le_of_cond48 hc
  have ei : (iw - 48).toNat = l.i - 48 := by bv_omega
  have e16 : (pw + 16).toNat = l.p + 16 := by bv_omega
  have e32 : (pw + 32).toNat = l.p + 32 := by bv_omega
  have ep : (pw + 48).toNat = l.p + 48 := by bv_omega
  have r0 : subBlock (s.keyView n) pw s.variant.k1 l.s0 = .ok t0 := by
    rw [h.alike.subBlock_eq (show pw.toNat + 16 ≤ n.toNat by omega) n.isLt, hpw, m0]
  have r1 : subBlock (s.keyView n) (pw + 16) s.variant.k2 l.s1 = .ok t1 := by
    rw [h.alike.subBlock_eq (show (pw + 16).toNat + 16 ≤ n.toNat by omega) n.isLt, e16, m1]
  have r2 : subBlock (s.keyView n) (pw + 32) s.variant.k3 l.s2 = .ok t2 := by
    rw [h.alike.subBlock_eq (show (pw + 32).toNat + 16 ≤ n.toNat by omega) n.isLt, e32, m2]
  exact ⟨_, execBlk48_next.mpr
      ⟨l.s0, h0, l.s1, h1, l.s2, h2, iw, hsi, pw, hsp, n, h.hn, t0, r0, t1, r1, t2, r2, rfl⟩,
    by simp only [ei], ⟨rfl, congrArg some ei, congrArg some ep, show l.p + 48 + (l.i - 48) = n.toNat by omega⟩,
    rfl, rfl⟩

/-- From the entry of the 48-byte stage: one step for each iteration of R137's loop, then `FOLD3` and the rest. -/
theorem stage48_finishes {t : Word} {l' : Lanes} (hxy : LastBytes k x y)
    (hrest : stage16 V k k.len (l'.s0 ^^^ l'.s1 ^^^ l'.s2) l'.i l'.p = .ok t) (fuel : Nat) :
    ∀ {s : State} {l : Lanes}, Alone V n k s → AtLanes n s l → l.i ≤ fuel →
      s.phase = (if cond48 V l.i then Phase.blk48 else Phase.fold3) → stage48 V k fuel l = .ok l' →
      Finishes (blk48Steps V l.i + blk16Steps V l.i + 3) s (finalize V (x ^^^ V.k1) (y ^^^ t) n) := by
  induction fuel with
  | zero =>
    intro s l h hl hfuel hp hstage
    have hc : cond48 V l.i = false := cond48_false_iff.mpr (.inl (by omega))
    exact stage48_exit_finishes hxy h hl hc hp hstage hrest
  | succ fuel ih =>
    intro s l h hl hfuel hp hstage
    cases hc : cond48 V l.i with
    | true =>
      obtain ⟨t0, m0, t1, m1, t2, m2, hloop⟩ := (stage48_succ_ok_iff hc).mp hstage
      obtain ⟨u, hu, hup, hul⟩ := blk48_step h hl hc m0 m1 m2
      have hfuel' : l.i - 48 ≤ fuel := by omega
      rw [blk48Steps_of_cond48 hc, blk16Steps_of_cond48 hc, show ∀ q m : Nat, q + 1 + m + 3 = q + m + 3 + 1 by omega]
      exact h.finishes (i := .blk48) (by rw [hp, hc]; rfl) hu fun ha => ih ha hul hfuel' hup hloop
    | false => exact stage48_exit_finishes hxy h hl hc hp hstage hrest

theorem longent_finishes {s0 a b : Word} (h : Alone V n k s) (hp : s.phase = classPhase .clong)
    (h0 : s.s0 = some s0) (h17 : 17 ≤ n.toNat) (hpath : longPath V s0 k = .ok (a, b)) :
    Finishes (callSteps V n.toNat - 2) s (finalize V a b n) := by
  obtain ⟨l, hl, t, ht, x, hx, y, hy, rfl, rfl⟩ := longPath_ok_iff.mp hpath
  have hlen := h.len
  have hxy : LastBytes k x y := ⟨by omega, hx, hy⟩
  have hd : decode (.phase s.phase) = .instr .longent := by rw [hp]; rfl
  have hleft : (some n).map BitVec.toNat = some k.len := congrArg some hlen.symm
  have hsum : 0 + k.len = n.toNat := (Nat.zero_add _).trans hlen
  obtain rfl := h.variant
  rw [← hlen] at h17 ⊢
  cases hc : cond48 s.variant k.len with
  | true =>
    rw [hc, if_pos rfl] at ht
    rw [callSteps_of_cond48 hc]
    exact h.finishes hd (execLongent_next.mpr ⟨n, h.hn, (if_pos (hlen ▸ hc)).mpr ⟨s0, h0, rfl⟩⟩)
      fun ha => stage48_finishes hxy ht k.len ha ⟨⟨h0, hleft, rfl, hsum⟩, rfl, rfl⟩ le_rfl (by rw [hc]; rfl) hl
  | false =>
    rw [stage48_of_not_cond48 hc] at hl
    cases hl
    rw [hc, if_neg Bool.false_ne_true] at ht
    rw [callSteps_of_not_cond48 h17 hc]
    have hcn : ¬ cond48 s.variant n.toNat = true := by rw [← hlen, hc]; exact Bool.false_ne_true
    exact h.finishes hd (execLongent_next.mpr ⟨n, h.hn, (if_neg hcn).mpr rfl⟩)
      fun ha => stage16_finishes hxy k.len ha ⟨h0, hleft, rfl, hsum⟩ le_rfl (if_pos (by omega)).symm ht

theorem ld0_finishes {s0 a b : Word} (h : Alone V n k s) (hp : s.phase = classPhase .c0) (h0 : s.s0 = some s0)
    (hc : classOf (BitVec.ofNat 64 k.len) = .c0) (hab : classLanes V s0 k = .ok (a, b)) :
    Finishes 2 s (finalize V a b n) := by
  rw [classLanes_c0 hc] at hab
  cases hab
  obtain rfl := h.variant
  exact h.finishes (i := .ld0) (by rw [hp]; rfl) (execLd0_next.mpr ⟨s0, h0, rfl⟩)
    fun ha => final_finishes ha rfl rfl rfl

theorem ld3_finishes {s0 a b : Word} (h : Alone V n k s) (hp : s.phase = classPhase .c3) (h0 : s.s0 = some s0)
    (hc : classOf (BitVec.ofNat 64 k.len) = .c3) (hab : classLanes V s0 k = .ok (a, b)) :
    Finishes 2 s (finalize V a b n) := by
  obtain ⟨x, hx, rfl, rfl⟩ := (classLanes_c3_ok_iff hc).mp hab
  rw [h.ofNat_len, ← h.alike.read3_eq] at hx
  obtain rfl := h.variant
  exact h.finishes (i := .ld3) (by rw [hp]; rfl) (execLd3_next.mpr ⟨s0, h0, n, h.hn, x, hx, rfl⟩)
    fun ha => final_finishes ha rfl rfl rfl

theorem ld4_finishes {s0 a b : Word} (h : Alone V n k s) (hp : s.phase = classPhase .c4) (h0 : s.s0 = some s0)
    (hc : classOf (BitVec.ofNat 64 k.len) = .c4) (hab : classLanes V s0 k = .ok (a, b)) :
    Finishes 2 s (finalize V a b n) := by
  obtain ⟨w, hw, x, hx, y, hy, rfl, rfl⟩ := (classLanes_c4_ok_iff hc).mp hab
  rw [h.ofNat_len] at hw
  rw [← h.alike.lane_eq] at hx hy
  obtain rfl := h.variant
  exact h.finishes (i := .ld4) (by rw [hp]; rfl) (execLd4_next.mpr ⟨s0, h0, n, h.hn, w, hw, x, hx, y, hy, rfl⟩)
    fun ha => final_finishes ha rfl rfl rfl

/-- From the phase `DISPATCH` goes to, in each of the four classes. -/
theorem class_finishes {s0 a b : Word} (h : Alone V n k s) (hp : s.phase = classPhase (classOf n))
    (h0 : s.s0 = some s0) (hab : classLanes V s0 k = .ok (a, b)) :
    Finishes (callSteps V n.toNat - 2) s (finalize V a b n) := by
  have hlen := h.ofNat_len
  cases hc : classOf n with
  | c0 =>
    have := classOf_eq_c0.mp hc
    rw [callSteps_of_short (by omega)]
    exact ld0_finishes h (hc ▸ hp) h0 (hlen ▸ hc) hab
  | c3 =>
    have := classOf_eq_c3.mp hc
    rw [callSteps_of_short (by omega)]
    exact ld3_finishes h (hc ▸ hp) h0 (hlen ▸ hc) hab
  | c4 =>
    have := classOf_eq_c4.mp hc
    rw [callSteps_of_short (by omega)]
    exact ld4_finishes h (hc ▸ hp) h0 (hlen ▸ hc) hab
  | clong =>
    rw [classLanes_clong (hlen ▸ hc)] at hab
    exact longent_finishes h (hc ▸ hp) h0 (classOf_eq_clong.mp hc) hab

/-- From just after an accepted `START`: the sequencer computes R161's function in R166's steps (R162). -/
theorem seedmix_finishes {seed r : Word} (h : Alone V n k s) (hp : s.phase = Phase.seedmix) (h0 : s.s0 = some seed)
    (hr : wyhashCore V seed k = .ok r) : Finishes (callSteps V n.toNat) s r := by
  obtain ⟨a, b, hab, rfl⟩ := wyhashCore_ok_iff.mp hr
  rw [h.ofNat_len]
  obtain rfl := h.variant
  have hsteps := four_le_callSteps s.variant n.toNat
  rw [show callSteps s.variant n.toNat = callSteps s.variant n.toNat - 2 + 1 + 1 by omega]
  exact h.finishes (i := .seedmix) (by rw [hp]; rfl) (execSeedmix_next.mpr ⟨seed, h0, rfl⟩) fun hs =>
    hs.finishes (i := .dispatch) rfl (execDispatch_next.mpr ⟨n, h.hn, rfl⟩) fun hd =>
      class_finishes hd rfl rfl hab

end Simulation

/-- A call begun with a complete key finishes with R161's function of any key that reads like its own. -/
theorem State.Begun.finishes {s : State} {seed n r : Word} {k : KeyView} (h : s.Begun seed n) (hturns : s.turns = [])
    (hk : ReadsAlike (s.keyView n) k) (hr : wyhashCore (variantOf s.var) seed k = .ok r) :
    Finishes (callSteps (variantOf s.var) n.toNat) s r := by
  obtain ⟨hp, h0, hn, -⟩ := h
  exact seedmix_finishes ⟨hturns, rfl, hn, hk⟩ hp h0 hr

/-- Settles O44: both blocks compute R161's function of the first block's key: the second block's key reads like it. -/
theorem resultDependsOnInputsOnly : Obligations.ResultDependsOnInputsOnly := by
  intro s s' seed n hs hs' hvar hturns hturns' hbytes
  have ⟨_, _, _, hcomplete⟩ := hs
  obtain ⟨r, hr⟩ := wyhashCore_ok (k := s.keyView n) s.var seed hcomplete n.isLt
  have hself : ReadsAlike (s.keyView n) (s.keyView n) := ⟨rfl, fun _ _ => rfl⟩
  have halike : ReadsAlike (s'.keyView n) (s.keyView n) := readsAlike_of_bytes rfl fun o ho => (hbytes o ho).symm
  obtain ⟨t, ht, -, hres, -⟩ := (hs.finishes hturns hself hr).ends
  obtain ⟨t', ht', -, hres', -⟩ := (hs'.finishes hturns' halike (hvar ▸ hr)).ends
  exact ⟨t, t', ht, hvar ▸ ht', hres.trans hres'.symm, by rw [hres]; rfl⟩

end Sys2Proof.Machine

/-!
PROOFS. What each operation may change and what it leaves (spec/10_state.md R42), for each of the eighteen operations.
-/

namespace Sys2Proof.Machine

/-! ## The primitives and the commands -/

theorem State.drive_frame (s : State) (vs : List Word) : s.drive vs = { s with outputs := (s.drive vs).outputs } := rfl

theorem execMum_frame {a b : Word} {s t : State} (h : execMum a b s = .next t) :
    t = { s with outputs := t.outputs } := by
  cases h
  exact s.drive_frame _

theorem execMix_frame {a b : Word} {s t : State} (h : execMix a b s = .next t) :
    t = { s with outputs := t.outputs } := by
  cases h
  exact s.drive_frame _

theorem execRead3_frame {len : Word} {s t : State} (h : execRead3 len s = .next t) :
    t = { s with outputs := t.outputs } := by
  obtain ⟨_, _, -, -, rfl⟩ := execRead3_next.mp h
  exact s.drive_frame _

theorem execRead4_frame {o : Word} {s t : State} (h : execRead4 o s = .next t) :
    t = { s with outputs := t.outputs } := by
  obtain ⟨_, _, -, -, rfl⟩ := execRead4_next.mp h
  exact s.drive_frame _

theorem execRead8_frame {o : Word} {s t : State} (h : execRead8 o s = .next t) :
    t = { s with outputs := t.outputs } := by
  obtain ⟨_, _, -, -, rfl⟩ := execRead8_next.mp h
  exact s.drive_frame _

theorem execNop_frame {v : BitVec 1} {s t : State} (h : execNop v s = .next t) : t = s := by
  cases h
  rfl

/-- In `IDLE` or `DONE` with both inputs written, `START` is accepted (R112). -/
theorem execStart_accepted (var : BitVec 1) {s : State} {seed len : Word}
    (hp : s.phase = Phase.idle ∨ s.phase = Phase.done) (hs : s.seedIn = some seed) (hl : s.lenIn = some len) :
    execStart var s = .next (s.acceptStart var seed len) := by
  simp only [execStart, if_pos hp, hs, hl]

theorem execStart_frame {var : BitVec 1} {s t : State} (h : execStart var s = .next t) :
    t = { s with perr := true } ∨
    t = { s with var := t.var, s0 := t.s0, n := t.n, phase := t.phase
                 s1 := none, s2 := none, a := none, b := none, i := none, p := none, result := none } := by
  rcases execStart_cases var s with rejected | ⟨seed, len, -, -, -, accepted⟩
  · rw [rejected] at h
    cases h
    exact .inl rfl
  · rw [accepted] at h
    cases h
    exact .inr rfl

/-- Settles O56: the primitives only drive their ports, `NOP` changes nothing, and `START` is rejected or accepted. -/
theorem framesOfPrimitivesAndCommands : Obligations.FramesOfPrimitivesAndCommands := fun _ _ =>
  ⟨fun _ _ => execMum_frame, fun _ _ => execMix_frame, fun _ => execRead3_frame, fun _ => execRead4_frame,
    fun _ => execRead8_frame, fun v => execNop_frame (v := v), fun _ => execStart_frame⟩

/-- Settles O12: an accepted `START` is the update `acceptStart`. -/
theorem acceptedStartLatchesInputs : Obligations.AcceptedStartLatchesInputs :=
  fun var _ _ _ hp hs hl => execStart_accepted var hp hs hl

/-! ## The phase operations -/

theorem execSeedmix_frame {s t : State} (h : execSeedmix s = .next t) :
    t = { s with s0 := t.s0, phase := t.phase } := by
  obtain ⟨_, -, rfl⟩ := execSeedmix_next.mp h
  rfl

theorem execDispatch_frame {s t : State} (h : execDispatch s = .next t) : t = { s with phase := t.phase } := by
  obtain ⟨_, -, rfl⟩ := execDispatch_next.mp h
  rfl

theorem execLd0_frame {s t : State} (h : execLd0 s = .next t) :
    t = { s with a := t.a, b := t.b, phase := t.phase } := by
  obtain ⟨_, -, rfl⟩ := execLd0_next.mp h
  rfl

theorem execLd3_frame {s t : State} (h : execLd3 s = .next t) :
    t = { s with a := t.a, b := t.b, phase := t.phase } := by
  obtain ⟨_, -, _, -, _, -, rfl⟩ := execLd3_next.mp h
  rfl

theorem execLd4_frame {s t : State} (h : execLd4 s = .next t) :
    t = { s with a := t.a, b := t.b, phase := t.phase } := by
  obtain ⟨_, -, _, -, _, -, _, -, _, -, rfl⟩ := execLd4_next.mp h
  rfl

/-- `LONGENT` writes `S1` and `S2` only on its way into the 48-byte stage (R132). -/
theorem execLongent_frame {s t : State} (h : execLongent s = .next t) :
    t = { s with i := t.i, p := t.p, s1 := t.s1, s2 := t.s2, phase := t.phase } ∧
    (t.phase ≠ Phase.blk48 → t.s1 = s.s1 ∧ t.s2 = s.s2) := by
  obtain ⟨_, -, hstage⟩ := execLongent_next.mp h
  split at hstage
  · obtain ⟨_, -, rfl⟩ := hstage
    exact ⟨rfl, fun hp => absurd rfl hp⟩
  · subst hstage
    exact ⟨rfl, fun _ => ⟨rfl, rfl⟩⟩

theorem execBlk48_frame {s t : State} (h : execBlk48 s = .next t) :
    t = { s with s0 := t.s0, s1 := t.s1, s2 := t.s2, i := t.i, p := t.p, phase := t.phase } := by
  obtain ⟨_, -, _, -, _, -, _, -, _, -, _, -, _, -, _, -, _, -, rfl⟩ := execBlk48_next.mp h
  rfl

theorem execFold3_frame {s t : State} (h : execFold3 s = .next t) : t = { s with s0 := t.s0, phase := t.phase } := by
  obtain ⟨_, -, _, -, _, -, _, -, rfl⟩ := execFold3_next.mp h
  rfl

theorem execBlk16_frame {s t : State} (h : execBlk16 s = .next t) :
    t = { s with s0 := t.s0, i := t.i, p := t.p, phase := t.phase } := by
  obtain ⟨_, -, _, -, _, -, _, -, _, -, rfl⟩ := execBlk16_next.mp h
  rfl

theorem execTail_frame {s t : State} (h : execTail s = .next t) :
    t = { s with a := t.a, b := t.b, phase := t.phase } := by
  obtain ⟨_, -, _, -, _, -, _, -, rfl⟩ := execTail_next.mp h
  rfl

theorem execFinal_frame {s t : State} (h : execFinal s = .next t) :
    t = { s with a := t.a, b := t.b, result := t.result, phase := t.phase } := by
  obtain ⟨_, -, _, -, _, -, rfl⟩ := execFinal_next.mp h
  rfl

/-- Settles O57: each operation's next state, as its law gives it, is such an update. -/
theorem framesOfPhaseOperations : Obligations.FramesOfPhaseOperations := fun _ _ =>
  ⟨execSeedmix_frame, execDispatch_frame, execLd0_frame, execLd3_frame, execLd4_frame, execLongent_frame,
    execBlk48_frame, execFold3_frame, execBlk16_frame, execTail_frame, execFinal_frame⟩

end Sys2Proof.Machine

/-!
PROOFS. What any step may change of a call's registers, of the inputs and of `RESULT` (spec/10_state.md R24, R27, R29,
R34, R35).
-/

namespace Sys2Proof.Machine

/-! ## Whose turn it is -/

/-- A step that answers a next state is a sequencer's step or a host's action, on the state from which its turn has been
taken (R165). -/
theorem step_next {s t : State} (h : step s = .next t) :
    (s.sequencerNext = true ∧ ∃ rest, sequencerStep { s with turns := rest } = .next t) ∨
    ∃ act rest, s.turns = .host act :: rest ∧ hostStep act { s with turns := rest } = .next t := by
  cases hs : s.sequencerNext with
  | true =>
    obtain ⟨rest, hstep⟩ := step_of_sequencerNext hs
    exact .inl ⟨rfl, rest, hstep ▸ h⟩
  | false =>
    obtain ⟨act, rest, hturns, hstep⟩ := step_of_hostNext hs
    exact .inr ⟨act, rest, hturns, hstep ▸ h⟩

theorem step_of_host {s : State} {act : HostAction} {rest : List Turn} (h : s.turns = .host act :: rest) :
    step s = hostStep act { s with turns := rest } := by
  simp only [step, takeTurn, h]

theorem resetNext_of_reset {s : State} {rest : List Turn} (h : s.turns = .host .reset :: rest) :
    s.resetNext = true := by
  simp only [State.resetNext, h]

theorem ne_reset_of_not_resetNext {s : State} {act : HostAction} {rest : List Turn} (h : s.turns = .host act :: rest)
    (hr : s.resetNext = false) : act ≠ .reset := by
  rintro rfl
  exact Bool.false_ne_true (hr.symm.trans (resetNext_of_reset h))

theorem commandNext_of_wrCmd {s : State} {w : BitVec 8} {rest : List Turn} (h : s.turns = .host (.wrCmd w) :: rest) :
    s.commandNext = true := by
  simp only [State.commandNext, h]

/-! ## What the host's actions change -/

/-- The host's part in a call: short of reset only an accepted `START` changes `VAR`, `N` or `RESULT` (R112, R170). -/
theorem hostStep_call {act : HostAction} {s t : State} (h : hostStep act s = .next t) (hr : act ≠ .reset) :
    (t.var = s.var ∧ t.n = s.n ∧ t.result = s.result) ∨
    ∃ w var seed len, act = .wrCmd w ∧ (s.phase = Phase.idle ∨ s.phase = Phase.done) ∧
      t = s.acceptStart var seed len := by
  rcases hostStep_next h with ⟨_, -, rfl⟩ | ⟨_, -, rfl⟩ | ⟨_, _, -, -, rfl, -⟩ | ⟨w, hw, command⟩ | ⟨hreset, -⟩ |
    ⟨-, -, -, -, _, _, _, rfl⟩
  · exact .inl ⟨rfl, rfl, rfl⟩
  · exact .inl ⟨rfl, rfl, rfl⟩
  · exact .inl ⟨rfl, rfl, rfl⟩
  · rcases command with rfl | rfl | ⟨var, seed, len, hp, -, -, accepted⟩
    · exact .inl ⟨rfl, rfl, rfl⟩
    · exact .inl ⟨rfl, rfl, rfl⟩
    · exact .inr ⟨w, var, seed, len, hw, hp, accepted⟩
  · exact absurd hreset hr
  · exact .inl ⟨rfl, rfl, rfl⟩

/-- Short of reset only the host's writes of `SEED_IN` and `LEN_IN` change them (R34, R35). -/
theorem hostStep_inputs {act : HostAction} {s t : State} (h : hostStep act s = .next t) (hr : act ≠ .reset) :
    (t.seedIn = s.seedIn ∨ ∃ v, act = .wrSeed v) ∧ (t.lenIn = s.lenIn ∨ ∃ v, act = .wrLen v) := by
  rcases hostStep_next h with ⟨v, hact, rfl⟩ | ⟨v, hact, rfl⟩ | ⟨_, _, -, -, rfl, -⟩ | ⟨_, -, command⟩ | ⟨hreset, -⟩ |
    ⟨-, -, -, -, _, _, _, rfl⟩
  · exact ⟨.inr ⟨v, hact⟩, .inl rfl⟩
  · exact ⟨.inl rfl, .inr ⟨v, hact⟩⟩
  · exact ⟨.inl rfl, .inl rfl⟩
  · rcases command with rfl | rfl | ⟨_, _, _, -, -, -, rfl⟩ <;> exact ⟨.inl rfl, .inl rfl⟩
  · exact absurd hreset hr
  · exact ⟨.inl rfl, .inl rfl⟩

/-! ## What any step changes -/

/-- A command is accepted only outside a call (R112, R32). -/
theorem not_busy_of_idle_or_done {s : State} (h : s.phase = Phase.idle ∨ s.phase = Phase.done) : ¬ s.busy = true := by
  rcases h with h | h <;> simp [State.busy, h]

/-- Settles O50: no sequencer step writes `VAR` or `N`, and while busy the host can start no other call. -/
theorem variantAndLengthConstantInACall : Obligations.VariantAndLengthConstantInACall := by
  intro s t hbusy h hr
  rcases step_next h with ⟨-, rest, hseq⟩ | ⟨act, rest, hturns, hhost⟩
  · obtain ⟨hvar, -, hn, -⟩ := sequencerStep_frame hseq
    exact ⟨hvar, hn⟩
  · rcases hostStep_call hhost (ne_reset_of_not_resetNext hturns hr) with ⟨hvar, hn, -⟩ | ⟨_, _, _, _, -, hp, -⟩
    · exact ⟨hvar, hn⟩
    · exact absurd hbusy (not_busy_of_idle_or_done (s := s) hp)

/-- Settles O51: no sequencer step writes an input, and of the host's actions only the two writes do. -/
theorem inputsChangedOnlyByTheHost : Obligations.InputsChangedOnlyByTheHost := by
  intro s t h hr
  rcases step_next h with ⟨-, rest, hseq⟩ | ⟨act, rest, hturns, hhost⟩
  · obtain ⟨-, -, -, hseed, hlen, -⟩ := sequencerStep_frame hseq
    exact ⟨fun hne => absurd hseed hne, fun hne => absurd hlen hne⟩
  · obtain ⟨hseed, hlen⟩ := hostStep_inputs hhost (ne_reset_of_not_resetNext hturns hr)
    refine ⟨fun hne => ?_, fun hne => ?_⟩
    · obtain ⟨v, rfl⟩ := hseed.resolve_left hne
      exact ⟨v, rest, hturns⟩
    · obtain ⟨v, rfl⟩ := hlen.resolve_left hne
      exact ⟨v, rest, hturns⟩

/-- `FINAL` is the only sequencer step that writes `RESULT` (R29). -/
theorem sequencerStep_result {s t : State} (h : sequencerStep s = .next t) :
    t.result = s.result ∨ s.phase = Phase.final ∧ t.phase = Phase.done := by
  cases sequencerStep_move h with
  | persists _ ht => exact .inl (congrArg State.result ht)
  | seedmix _ he => exact .inl (by rw [execSeedmix_frame he])
  | dispatch _ he => exact .inl (by rw [execDispatch_frame he])
  | ld0 _ he => exact .inl (by rw [execLd0_frame he])
  | ld3 _ he => exact .inl (by rw [execLd3_frame he])
  | ld4 _ he => exact .inl (by rw [execLd4_frame he])
  | longent _ he => exact .inl (by rw [(execLongent_frame he).1])
  | blk48 _ he => exact .inl (by rw [execBlk48_frame he])
  | fold3 _ he => exact .inl (by rw [execFold3_frame he])
  | blk16 _ he => exact .inl (by rw [execBlk16_frame he])
  | tail _ he => exact .inl (by rw [execTail_frame he])
  | final hp he =>
    obtain ⟨_, -, _, -, _, -, rfl⟩ := execFinal_next.mp he
    exact .inr ⟨hp, rfl⟩

/-- Settles O52: the sequencer writes `RESULT` at `FINAL`, and the host empties it by an accepted `START` or
by reset. -/
theorem resultWrittenOnlyByFinal : Obligations.ResultWrittenOnlyByFinal := by
  intro s t h hne
  rcases step_next h with ⟨hturn, rest, hseq⟩ | ⟨act, rest, hturns, hhost⟩
  · exact .inl ⟨hturn, (sequencerStep_result hseq).resolve_left hne⟩
  · by_cases hreset : act = .reset
    · subst hreset
      cases hhost
      exact .inr (.inr ⟨resetNext_of_reset hturns, rfl⟩)
    · rcases hostStep_call hhost hreset with ⟨-, -, hresult⟩ | ⟨w, _, _, _, rfl, hp, rfl⟩
      · exact absurd hresult hne
      · exact .inr (.inl ⟨commandNext_of_wrCmd hturns, hp, rfl, rfl⟩)

end Sys2Proof.Machine

/-!
PROOFS. `STATUS` bit by bit (spec/10_state.md R32) and the state after reset (R40).
-/

namespace Sys2Proof.Machine

/-! ## `STATUS` -/

theorem State.busy_eq_toNat (s : State) : s.busy = decide (1 ≤ s.phase.toNat ∧ s.phase.toNat ≤ 11) := rfl

theorem State.done_eq_toNat (s : State) : s.done = decide (s.phase.toNat = 12) :=
  decide_eq_decide.mpr BitVec.toNat_inj.symm

theorem phase_eq_idle_iff {s : State} : s.phase = Phase.idle ↔ s.phase.toNat = 0 := BitVec.toNat_inj.symm

/-- The fields stand where R32 puts them, whatever they hold. -/
theorem State.status_bits (s : State) :
    s.status[0] = s.busy ∧ s.status[1] = s.done ∧ s.status[2] = s.perr ∧ s.status[3] = decide (s.var = 1#1) ∧
    s.status.extractLsb' 4 4 = 0#4 := by
  unfold State.status
  generalize s.busy = busy, s.done = done, s.perr = perr, s.var = var
  revert busy done perr var
  decide

/-- Settles O32: the five fields of `STATUS`, and by `PHASE` as a number what `BUSY` and `DONE` exclude. -/
theorem statusIsComposed : Obligations.StatusIsComposed := by
  intro s w rest
  obtain ⟨busy, done, perr, var, upper⟩ := s.status_bits
  have hbusy := busy.trans s.busy_eq_toNat
  have hdone := done.trans s.done_eq_toNat
  refine ⟨fun hread => ⟨s.status, step_of_host hread, hbusy, hdone, perr, var, upper, ?_, fun tabled => ?_⟩,
    step_of_host⟩
  · rw [hbusy, hdone, decide_eq_true_eq, decide_eq_true_eq]
    omega
  · rw [hbusy, hdone, decide_eq_false_iff_not, decide_eq_false_iff_not, phase_eq_idle_iff]
    omega

/-! ## Reset -/

theorem State.reset_reg (r : Reg) : State.reset.reg r = none := by
  cases r <;> rfl

/-- Settles O35: the control state and `STATUS` by evaluation, each register by its name, and the key space is empty. -/
theorem resetLeavesControlStateOnly : Obligations.ResetLeavesControlStateOnly :=
  ⟨rfl, rfl, rfl, rfl, State.reset_reg, Memory.read_nil⟩

theorem phaseShape_idle {s : State} (h : s.phase = Phase.idle) :
    phaseShape s = true ↔ s.result = none ∧ s.var = 0#1 := by
  simp [phaseShape, h]

/-- Settles O40: the empty key space is canonical, and `IDLE` asks for no result and variant 0. -/
theorem resetMeetsTheInvariant : Obligations.ResetMeetsTheInvariant :=
  ⟨Memory.wf_nil, (phaseShape_idle rfl).mpr ⟨rfl, rfl⟩⟩

end Sys2Proof.Machine

/-!
PROOFS. The key space (spec/20_memory.md): windows read one after the other (R54), windows outside the key (R56), who
writes the key and when (R53, R55, R61), and the host's writes that stop (R50, R170).
-/

namespace Sys2Proof.Machine

/-! ## Adjacent windows (R54, R102) -/

theorem memRead_ok_iff {k : KeyView} {o count : Nat} {vs : List Byte} :
    memRead k o count = .ok vs ↔ o + count ≤ k.len ∧ k.bytes o count = .ok vs := by
  unfold memRead
  split <;> simp [*]

theorem memRead_length {k : KeyView} {o count : Nat} {vs : List Byte} (h : memRead k o count = .ok vs) :
    vs.length = count :=
  (k.bytes_spec (memRead_ok_iff.mp h).2).1

/-- Two adjacent windows read as one. -/
theorem memRead_append {k : KeyView} {o a b : Nat} {xs ys : List Byte} (hx : memRead k o a = .ok xs)
    (hy : memRead k (o + a) b = .ok ys) : memRead k o (a + b) = .ok (xs ++ ys) := by
  obtain ⟨-, hx⟩ := memRead_ok_iff.mp hx
  obtain ⟨hin, hy⟩ := memRead_ok_iff.mp hy
  obtain ⟨rfl, low⟩ := k.bytes_spec hx
  obtain ⟨rfl, high⟩ := k.bytes_spec hy
  rw [← List.length_append]
  refine memRead_bytes (by rwa [List.length_append, ← Nat.add_assoc]) fun j hj => ?_
  by_cases hlow : j < xs.length
  · rw [List.getElem?_append_left hlow, low j hlow]
  · rw [List.length_append] at hj
    rw [List.getElem?_append_right (by omega), ← high (j - xs.length) (by omega)]
    exact congrArg k.byte (by omega)

/-- The bytes at the higher offsets are the more significant ones (R54). -/
theorem littleEndian_append (xs ys : List Byte) :
    littleEndian (xs ++ ys) = littleEndian xs ||| (littleEndian ys <<< (8 * xs.length)) := by
  induction xs with
  | nil => simp [littleEndian_nil]
  | cons v xs ih =>
    rw [List.cons_append, littleEndian, ih, BitVec.shiftLeft_or_distrib, ← BitVec.shiftLeft_add, ← BitVec.or_assoc,
      ← Nat.mul_succ, littleEndian, List.length_cons]

theorem read4_ok_iff {k : KeyView} {o : Nat} {w : Word} :
    read4 k o = .ok w ↔ ∃ vs, memRead k o 4 = .ok vs ∧ littleEndian vs = w := by
  unfold read4
  cases memRead k o 4 <;> simp

theorem read8_ok_iff {k : KeyView} {o : Nat} {w : Word} :
    read8 k o = .ok w ↔ ∃ vs, memRead k o 8 = .ok vs ∧ littleEndian vs = w := by
  unfold read8
  cases memRead k o 8 <;> simp

/-- Settles O7: the two windows are adjacent, and the upper one stands four bytes higher in the word. -/
theorem read8IsTwoRead4 : Obligations.Read8IsTwoRead4 := by
  intro k o x y hx hy
  obtain ⟨xs, hxs, rfl⟩ := read4_ok_iff.mp hx
  obtain ⟨ys, hys, rfl⟩ := read4_ok_iff.mp hy
  refine read8_ok_iff.mpr ⟨xs ++ ys, memRead_append hxs hys, ?_⟩
  rw [littleEndian_append, memRead_length hxs]

/-! ## Who writes the key (R53, R55, R61) -/

/-- No operation has the key among the fields it may change (R53, R42). -/
theorem exec_key {i : Instr} {s t : State} (h : exec i s = .next t) : t.key = s.key := by
  cases i with
  | mum a b => rw [execMum_frame h]
  | mix a b => rw [execMix_frame h]
  | read3 len => rw [execRead3_frame h]
  | read4 o => rw [execRead4_frame h]
  | read8 o => rw [execRead8_frame h]
  | seedmix => rw [execSeedmix_frame h]
  | dispatch => rw [execDispatch_frame h]
  | ld0 => rw [execLd0_frame h]
  | ld3 => rw [execLd3_frame h]
  | ld4 => rw [execLd4_frame h]
  | longent => rw [(execLongent_frame h).1]
  | blk48 => rw [execBlk48_frame h]
  | fold3 => rw [execFold3_frame h]
  | blk16 => rw [execBlk16_frame h]
  | tail => rw [execTail_frame h]
  | final => rw [execFinal_frame h]
  | nop v => rw [execNop_frame (v := v) h]
  | start var =>
    rcases execStart_frame h with rejected | accepted
    · rw [rejected]
    · rw [accepted]

/-- Settles O53: the key after an operation is the key before it. -/
theorem noOperationWritesTheKey : Obligations.NoOperationWritesTheKey := by
  intro i s t h o
  rw [exec_key h]

/-- Short of reset the host changes the key only by `WRKEY`, and while busy not from below `N` (R55, R170). -/
theorem hostStep_key {act : HostAction} {s t : State} (h : hostStep act s = .next t) (hr : act ≠ .reset) :
    t.key = s.key ∨
    ∃ (o : Word) (bytes : List Byte), o.toNat + bytes.length ≤ 2 ^ 64 ∧ t.key = s.key.writeBytes o.toNat bytes ∧
      (s.busy = true → bytes ≠ [] → ∀ n, s.n = some n → n.toNat ≤ o.toNat) := by
  rcases hostStep_next h with ⟨_, -, rfl⟩ | ⟨_, -, rfl⟩ | ⟨o, bytes, -, hin, rfl, above⟩ | ⟨_, -, command⟩ |
    ⟨hreset, -⟩ | ⟨-, -, -, -, _, _, _, rfl⟩
  · exact .inl rfl
  · exact .inl rfl
  · exact .inr ⟨o, bytes, hin, rfl, above⟩
  · rcases command with rfl | rfl | ⟨_, _, _, -, -, -, rfl⟩ <;> exact .inl rfl
  · exact absurd hreset hr
  · exact .inl rfl

/-- Settles O54: no sequencer step writes the key, and while busy the host writes only at `N` and above. -/
theorem keyConstantDuringACall : Obligations.KeyConstantDuringACall := by
  intro s t n hwf hbusy hn h hr o ho
  rcases step_next h with ⟨-, rest, hseq⟩ | ⟨act, rest, hturns, hhost⟩
  · obtain ⟨-, -, -, -, -, hkey, -⟩ := sequencerStep_frame hseq
    rw [hkey]
  · rcases hostStep_key hhost (ne_reset_of_not_resetNext hturns hr) with hkey | ⟨first, bytes, hin, hkey, above⟩
    · rw [hkey]
    · rw [hkey]
      by_cases hempty : bytes = []
      · rw [hempty, Memory.writeBytes]
      · have hfirst : n.toNat ≤ first.toNat := above hbusy hempty n hn
        exact Memory.read_writeBytes_other hin hwf (.inl (by omega))

/-! ## Windows outside the key (R56, R100) -/

theorem read4_outside {k : KeyView} {o : Nat} (h : k.len < o + 4) :
    read4 k o = .error (.keyOutOfBounds o 4 k.len) := by
  simp only [read4, memRead_outside h]

theorem read8_outside {k : KeyView} {o : Nat} (h : k.len < o + 8) :
    read8 k o = .error (.keyOutOfBounds o 8 k.len) := by
  simp only [read8, memRead_outside h]

theorem read1_outside {k : KeyView} {o : Nat} (h : k.len < o + 1) :
    read1 k o = .error (.keyOutOfBounds o 1 k.len) := by
  simp only [read1, memRead_outside h]

theorem read3_length {k : KeyView} {len : Word} (h : len.toNat = 0 ∨ 3 < len.toNat) :
    read3 k len = .error (.read3Length len.toNat) :=
  if_neg (by omega)

/-- A legal length past the key is at the latest a fault at the third byte, the last of the window (R100). -/
theorem read3_outside {k : KeyView} {len : Word} (h1 : 1 ≤ len.toNat) (h3 : len.toNat ≤ 3) (h : k.len < len.toNat) :
    ∃ e, read3 k len = .error e := by
  have last : read1 k (len - 1).toNat = .error (.keyOutOfBounds (len - 1).toNat 1 k.len) :=
    read1_outside (by bv_omega)
  rw [read3, if_pos ⟨h1, h3⟩, last]
  cases read1 k 0 with
  | error e => exact ⟨e, rfl⟩
  | ok b0 =>
    cases read1 k (len >>> 1).toNat with
    | error e => exact ⟨e, rfl⟩
    | ok b1 => exact ⟨_, rfl⟩

/-- Settles O8: a reader whose read of the key gives a fault stops with it. -/
theorem readersStopOutsideTheKey : Obligations.ReadersStopOutsideTheKey := by
  intro s n o hn
  have hreg : s.reg .n = some n := hn
  refine ⟨fun h => ?_, fun h => ?_, fun h => ?_, fun h1 h3 h => ?_⟩
  · exact (State.withReg_some hreg).trans (withRead_error (read4_outside h))
  · exact (State.withReg_some hreg).trans (withRead_error (read8_outside h))
  · exact (State.withReg_some hreg).trans (withRead_error (read3_length h))
  · obtain ⟨e, he⟩ := read3_outside (k := s.keyView n) h1 h3 h
    exact ⟨e, (State.withReg_some hreg).trans (withRead_error he)⟩

/-! ## The host's writes that stop (R50, R55, R170) -/

theorem writeKey_past_space {o : Word} {bytes : List Byte} (s : State) (h : 2 ^ 64 < o.toNat + bytes.length) :
    writeKey o bytes s = .fault (.keyOffsetOutsideSpace (2 ^ 64)) :=
  if_pos h

theorem writeKey_during_call {o n : Word} {bytes : List Byte} {s : State} (hin : o.toNat + bytes.length ≤ 2 ^ 64)
    (hbusy : s.busy = true) (hn : s.n = some n) (hbytes : bytes ≠ []) (ho : o.toNat < n.toNat) :
    writeKey o bytes s = .refused (.keyWriteDuringCall o.toNat) := by
  rw [writeKey, if_neg (by omega), if_pos (by simp [hbusy, hn, hbytes, ho])]

/-- Settles O31: the step is the host's write, which stops in either case; taking its turn leaves `BUSY` and `N`. -/
theorem hostKeyWritesThatStop : Obligations.HostKeyWritesThatStop := by
  intro s o n bytes rest hturns
  have hstep : step s = writeKey o bytes { s with turns := rest } := step_of_host hturns
  rw [hstep]
  exact ⟨writeKey_past_space _, writeKey_during_call (s := { s with turns := rest })⟩

end Sys2Proof.Machine

/-!
PROOFS. The encodings (spec/30_encoding.md R72, R73, R75, R78), and `WAIT DONE` (R79).
-/

namespace Sys2Proof.Machine

/-! ## A code that selects an operation is that operation's own code (R72, R73, R75) -/

/-- The decoder reads every operation's own code back: the family of `Laws.RoundTrip` as one law. -/
theorem decode_encode (i : Instr) : decode (encode i) = .instr i := by
  cases i with
  | mum a b => exact Laws.RoundTrip.mum a b
  | mix a b => exact Laws.RoundTrip.mix a b
  | read3 len => exact Laws.RoundTrip.read3 len
  | read4 o => exact Laws.RoundTrip.read4 o
  | read8 o => exact Laws.RoundTrip.read8 o
  | seedmix => exact Laws.RoundTrip.seedmix
  | dispatch => exact Laws.RoundTrip.dispatch
  | ld0 => exact Laws.RoundTrip.ld0
  | ld3 => exact Laws.RoundTrip.ld3
  | ld4 => exact Laws.RoundTrip.ld4
  | longent => exact Laws.RoundTrip.longent
  | blk48 => exact Laws.RoundTrip.blk48
  | fold3 => exact Laws.RoundTrip.fold3
  | blk16 => exact Laws.RoundTrip.blk16
  | tail => exact Laws.RoundTrip.tail
  | final => exact Laws.RoundTrip.final
  | nop v => exact Laws.RoundTrip.nop v
  | start var => exact Laws.RoundTrip.start var

/-- A label and its operands select only the operation they are the code of (R73). -/
theorem decodeFunction_code {f : BitVec 3} {xs : List Word} {i : Instr} (h : decodeFunction f xs = .instr i) :
    encode i = .fn f xs := by
  unfold decodeFunction at h
  split_ifs at h with h0 h1 h2 h3 h4
  all_goals
    subst f
    split at h <;> cases h
    rfl

/-- The two halves of `decodeCommand`'s test, bits 7:5 zero and `OP`, and bit 4 make up the whole word (R75). -/
theorem decodeCommand_code {w : BitVec 8} {i : Instr} (h : decodeCommand w = .instr i) : encode i = .command w := by
  have word : ∀ w : BitVec 8, (w &&& 0xEF#8 = 0x00#8 → 0#3 ++ w.extractLsb' 4 1 ++ 0x0#4 = w) ∧
      (w &&& 0xEF#8 = 0x01#8 → 0#3 ++ w.extractLsb' 4 1 ++ 0x1#4 = w) := by decide
  unfold decodeCommand at h
  split_ifs at h with hnop hstart
  · cases h
    exact congrArg Code.command ((word w).1 hnop)
  · cases h
    exact congrArg Code.command ((word w).2 hstart)

theorem encode_of_decode {c : Code} {i : Instr} (h : decode c = .instr i) : encode i = c := by
  cases c with
  | phase p => exact decode_phase_code h
  | fn f xs => exact decodeFunction_code h
  | command w => exact decodeCommand_code h

/-- Settles O38: one direction is the decoder's inversion format by format, the other the round trip. -/
theorem decodeInvertsEncode : Obligations.DecodeInvertsEncode := by
  intro c i
  constructor
  · exact fun h => (encode_of_decode h).symm
  · rintro rfl
    exact decode_encode i

/-! ## The codes the tables give an operation (R78) -/

theorem wf_encode (i : Instr) : (encode i).wf = true := by
  cases i with
  | nop v => revert v; decide
  | start v => revert v; decide
  | _ => rfl

/-- The phases 0x1..0xB, as `Code.wf` counts them, are those in which the block is busy (R32, R72). -/
theorem decode_phase_of_wf {p : BitVec 4} (h : (Code.phase p).wf = true) : ∃ i, decode (.phase p) = .instr i := by
  have hp : 1 ≤ p.toNat ∧ p.toNat ≤ 11 := of_decide_eq_true h
  have hbusy : 0x1#4 ≤ p ∧ p ≤ 0xB#4 := by bv_omega
  exact decode_phase_of_busy (s := { State.reset with phase := p }) (decide_eq_true hbusy)

theorem decode_fn_of_wf {f : BitVec 3} {xs : List Word} (h : (Code.fn f xs).wf = true) :
    ∃ i, decode (.fn f xs) = .instr i := by
  have hshape : (f.toNat ≤ 1 ∧ xs.length = 2) ∨ ((2 ≤ f.toNat ∧ f.toNat ≤ 4) ∧ xs.length = 1) := by
    simpa [Code.wf] using h
  rcases hshape with ⟨hf, hxs⟩ | ⟨hf, hxs⟩
  · obtain ⟨a, b, rfl⟩ := List.length_eq_two.mp hxs
    obtain rfl | rfl : f = 0#3 ∨ f = 1#3 := by bv_omega
    · exact ⟨.mum a b, rfl⟩
    · exact ⟨.mix a b, rfl⟩
  · obtain ⟨a, rfl⟩ := List.length_eq_one_iff.mp hxs
    obtain rfl | rfl | rfl : f = 2#3 ∨ f = 3#3 ∨ f = 4#3 := by bv_omega
    · exact ⟨.read3 a, rfl⟩
    · exact ⟨.read4 a, rfl⟩
    · exact ⟨.read8 a, rfl⟩

/-- The table's reading of a `CMD` word by its fields leaves the two words of the decoder's mask (R75). -/
theorem decode_command_of_wf {w : BitVec 8} (h : (Code.command w).wf = true) :
    ∃ i, decode (.command w) = .instr i := by
  have masked : ∀ w : BitVec 8, (Code.command w).wf = true → w &&& 0xEF#8 = 0x00#8 ∨ w &&& 0xEF#8 = 0x01#8 := by
    decide
  rcases masked w h with hnop | hstart
  · exact ⟨.nop (w.extractLsb' 4 1), if_pos hnop⟩
  · refine ⟨.start (w.extractLsb' 4 1), ?_⟩
    simp [decode, decodeCommand, hstart]

theorem decode_of_wf {c : Code} (h : c.wf = true) : ∃ i, decode c = .instr i := by
  cases c with
  | phase p => exact decode_phase_of_wf h
  | fn f xs => exact decode_fn_of_wf h
  | command w => exact decode_command_of_wf h

/-- Settles O39: a code that decodes is the code of its operation, and every operation's code is in the tables. -/
theorem reservedCodesAreRejected : Obligations.ReservedCodesAreRejected := by
  intro c
  constructor
  · rintro ⟨i, hi⟩
    exact encode_of_decode hi ▸ wf_encode i
  · exact decode_of_wf

/-- Settles O37: each accepted word is the code of its operation; the two rejected ones are evaluated. -/
theorem tabledWordsDecode : Obligations.TabledWordsDecode :=
  ⟨decode_encode (.mum 3 5), decode_encode (.read8 9), decode_encode .seedmix, decode_encode .ld4, decode_encode .blk48,
    decode_encode .final, rfl, decode_encode (.nop 1), decode_encode (.start 0), decode_encode (.start 1), rfl⟩

/-! ## `WAIT DONE` (R79) -/

/-- A poll records `STATUS`; short of `DONE` it puts the sequencer's turn and the next poll ahead of the turns left. -/
theorem pollDone_eq (s : State) :
    pollDone s = { s with
      reads := { reg := .status, value := s.status.setWidth 64 } :: s.reads
      turns := if s.phase = Phase.done then s.turns else .sequencer :: .host .waitDone :: s.turns } := by
  by_cases hp : s.phase = Phase.done
  · have hdone : s.done = true := decide_eq_true hp
    simp only [pollDone, hdone, if_pos hp, if_true]
    rfl
  · have hdone : s.done = false := decide_eq_false hp
    simp only [pollDone, hdone, if_neg hp, Bool.false_eq_true, if_false]
    rfl

/-- Settles O34: the step is the poll, made on the state from which its turn has been taken. -/
theorem waitDonePollsStatus : Obligations.WaitDonePollsStatus := by
  intro s rest hturns
  exact (step_of_host hturns).trans (congrArg Host.Outcome.next (pollDone_eq { s with turns := rest }))

end Sys2Proof.Machine

/-!
PROOFS. The wide multiply, its split form and the mix (spec/40_mix_primitives.md R90 to R92).
-/

namespace Sys2Proof.Machine

/-! ## The wide multiply (R90) -/

/-- The converse of `mum_product`: two numbers that make up the exact product, the low one a word, are its halves. -/
theorem mum_eq_of_product {a b : Word} {low high : Nat} (hlow : low < 2 ^ 64)
    (hprod : a.toNat * b.toNat = high * 2 ^ 64 + low) : mum a b = (BitVec.ofNat 64 low, BitVec.ofNat 64 high) := by
  have hlo : BitVec.ofNat 64 (high * 2 ^ 64 + low) = BitVec.ofNat 64 low := by
    bv_omega
  have hhi : (high * 2 ^ 64 + low) / 2 ^ 64 = high := by omega
  rw [mum, hprod, hlo, hhi]

theorem mum_comm (a b : Word) : mum a b = mum b a := by
  rw [mum, mum, Nat.mul_comm]

theorem mum_zero_left (b : Word) : mum 0 b = (0, 0) :=
  mum_eq_of_product (by decide) (Nat.zero_mul _)

theorem mum_one_left (b : Word) : mum 1 b = (b, 0) := by
  simpa using mum_eq_of_product (a := 1) (b := b) (high := 0) b.isLt (by simp)

/-- The largest product is `(2^64 - 1)^2`, whose high half is `2^64 - 2`. -/
theorem mum_high_le (a b : Word) : (mum a b).2.toNat ≤ 2 ^ 64 - 2 := by
  have hmax : a.toNat * b.toNat ≤ (2 ^ 64 - 1) * (2 ^ 64 - 1) :=
    Nat.mul_le_mul (Nat.le_pred_of_lt a.isLt) (Nat.le_pred_of_lt b.isLt)
  have hprod := mum_product a b
  omega

/-! ## The split form (R91) -/

/-- A product from the four partial products of its operands' 32-bit halves, each at its place. -/
theorem mul_eq_partial_products (x y : Nat) :
    x * y = x / 2 ^ 32 * (y / 2 ^ 32) * 2 ^ 64 +
      (x % 2 ^ 32 * (y / 2 ^ 32) + x / 2 ^ 32 * (y % 2 ^ 32)) * 2 ^ 32 + x % 2 ^ 32 * (y % 2 ^ 32) := by
  calc x * y = (2 ^ 32 * (x / 2 ^ 32) + x % 2 ^ 32) * (2 ^ 32 * (y / 2 ^ 32) + y % 2 ^ 32) := by
        rw [Nat.div_add_mod, Nat.div_add_mod]
    _ = _ := by ring

/-- The carries of R91: the middle column `mid` keeps its low half and gives the rest to the high half of the sum. -/
theorem partial_products_carry {p00 p01 p10 p11 mid : Nat}
    (hmid : mid = p00 / 2 ^ 32 + p01 % 2 ^ 32 + p10 % 2 ^ 32) :
    p11 * 2 ^ 64 + (p01 + p10) * 2 ^ 32 + p00 =
      (p11 + p01 / 2 ^ 32 + p10 / 2 ^ 32 + mid / 2 ^ 32) * 2 ^ 64 + (mid % 2 ^ 32 * 2 ^ 32 + p00 % 2 ^ 32) := by
  omega

/-- Settles O3: the numbers the split sequence puts together make up the exact product, so they are its halves. -/
theorem splitMultiplyEqualsWideMultiply : Obligations.SplitMultiplyEqualsWideMultiply := by
  intro a b
  have hprod := (mul_eq_partial_products a.toNat b.toNat).trans (partial_products_carry rfl)
  exact (mum_eq_of_product (by omega) hprod).symm

/-! ## `MUM` and `MIX` (R90, R92) -/

theorem exec_mum (a b : Word) (s : State) :
    exec (.mum a b) s = .next { s with outputs := [(mum a b).1, (mum a b).2] } := rfl

theorem exec_mix (a b : Word) (s : State) : exec (.mix a b) s = .next { s with outputs := [mix a b] } := rfl

theorem mix_comm (a b : Word) : mix a b = mix b a := by
  rw [mix, mix, mum_comm]

/-- A zero operand erases the other. -/
theorem mix_zero_left (b : Word) : mix 0 b = 0 := by
  rw [mix, mum_zero_left]
  exact BitVec.xor_self

theorem mix_one_left (b : Word) : mix 1 b = b := by
  rw [mix, mum_one_left]
  exact BitVec.xor_zero

/-- Settles O1: the halves are those of `mum`, which does not tell its operands apart. -/
theorem mumGivesBothHalves : Obligations.MumGivesBothHalves := by
  intro s a b
  refine ⟨(mum a b).1, (mum a b).2, exec_mum a b s, ?_, mum_product a b, mum_high_le a b⟩
  rw [exec_mum, mum_comm]

/-- Settles O2: the halves are those of `mum`; with a zero or a one as operand the high half is zero. -/
theorem mixFoldsTheProduct : Obligations.MixFoldsTheProduct := by
  intro s a b
  refine ⟨⟨(mum a b).1, (mum a b).2, mum_product a b, exec_mix a b s, ?_⟩, ?_, ?_⟩
  · rw [exec_mix, mix_comm, mix]
  · rw [exec_mix, mix_zero_left]
  · rw [exec_mix, mix_one_left]

end Sys2Proof.Machine

/-!
PROOFS. What the three byte readers output on a window that holds values (spec/41 R100 to R102).
-/

namespace Sys2Proof.Machine

theorem KeyView.bytes_cons (k : KeyView) {o count : Nat} {v : Byte} {vs : List Byte} (h : k.byte o = some v)
    (hs : k.bytes (o + 1) count = .ok vs) : k.bytes o (count + 1) = .ok (v :: vs) := by
  simp only [KeyView.bytes, h, hs]

/-- The value of `READ4` (R101): its window is four bytes, lowest offset first. -/
theorem read4_bytes {k : KeyView} {o : Nat} {c0 c1 c2 c3 : Byte} (hin : o + 4 ≤ k.len)
    (h0 : k.byte o = some c0) (h1 : k.byte (o + 1) = some c1) (h2 : k.byte (o + 2) = some c2)
    (h3 : k.byte (o + 3) = some c3) : read4 k o = .ok (0#32 ++ c3 ++ c2 ++ c1 ++ c0 : BitVec 64) := by
  have window : k.bytes o 4 = .ok [c0, c1, c2, c3] :=
    k.bytes_cons h0 (k.bytes_cons h1 (k.bytes_cons h2 (k.bytes_cons h3 rfl)))
  exact read4_ok_iff.mpr ⟨_, memRead_ok_iff.mpr ⟨hin, window⟩, littleEndian_four c0 c1 c2 c3⟩

/-- The value of `READ8` (R102): its window is eight bytes, lowest offset first. -/
theorem read8_bytes {k : KeyView} {o : Nat} {c0 c1 c2 c3 c4 c5 c6 c7 : Byte} (hin : o + 8 ≤ k.len)
    (h0 : k.byte o = some c0) (h1 : k.byte (o + 1) = some c1) (h2 : k.byte (o + 2) = some c2)
    (h3 : k.byte (o + 3) = some c3) (h4 : k.byte (o + 4) = some c4) (h5 : k.byte (o + 5) = some c5)
    (h6 : k.byte (o + 6) = some c6) (h7 : k.byte (o + 7) = some c7) :
    read8 k o = .ok (c7 ++ c6 ++ c5 ++ c4 ++ c3 ++ c2 ++ c1 ++ c0 : BitVec 64) := by
  have high : k.bytes (o + 4) 4 = .ok [c4, c5, c6, c7] :=
    k.bytes_cons h4 (k.bytes_cons h5 (k.bytes_cons h6 (k.bytes_cons h7 rfl)))
  have window : k.bytes o 8 = .ok [c0, c1, c2, c3, c4, c5, c6, c7] :=
    k.bytes_cons h0 (k.bytes_cons h1 (k.bytes_cons h2 (k.bytes_cons h3 high)))
  exact read8_ok_iff.mpr ⟨_, memRead_ok_iff.mpr ⟨hin, window⟩, littleEndian_eight c0 c1 c2 c3 c4 c5 c6 c7⟩

/-- The value of `READ3` (R100): one byte read at each of the offsets `0`, `len / 2` and `len - 1`. -/
theorem read3_bytes {k : KeyView} {len : Word} {b0 b1 b2 : Byte} (hpos : 1 ≤ len.toNat) (hle : len.toNat ≤ 3)
    (hin : len.toNat ≤ k.len) (h0 : k.byte 0 = some b0) (h1 : k.byte (len.toNat / 2) = some b1)
    (h2 : k.byte (len.toNat - 1) = some b2) :
    read3 k len = .ok ((b0.setWidth 64 <<< 16) ||| (b1.setWidth 64 <<< 8) ||| b2.setWidth 64) := by
  have middle : (len >>> 1).toNat = len.toNat / 2 := by
    rw [BitVec.toNat_ushiftRight, Nat.shiftRight_one]
  have last : (len - 1).toNat = len.toNat - 1 := by bv_omega
  have e0 : read1 k 0 = .ok (b0.setWidth 64) := read1_byte (by omega) h0
  have e1 : read1 k (len >>> 1).toNat = .ok (b1.setWidth 64) := middle ▸ read1_byte (by omega) h1
  have e2 : read1 k (len - 1).toNat = .ok (b2.setWidth 64) := last ▸ read1_byte (by omega) h2
  simp only [read3, if_pos (And.intro hpos hle), e0, e1, e2]

/-- Settles O4: the three bytes are those `read3` reads, and the operation only drives its port. -/
theorem read3PlacesThreeBytes : Obligations.Read3PlacesThreeBytes := by
  intro s n len b0 b1 b2 hn hpos hle hin h0 h1 h2
  exact execRead3_next.mpr ⟨n, _, hn, read3_bytes hpos hle hin h0 h1 h2, rfl⟩

/-- Settles O5: the value is that of `read4`, and the operation only drives its port. -/
theorem read4IsLittleEndian : Obligations.Read4IsLittleEndian := by
  intro s n o c0 c1 c2 c3 hn hin h0 h1 h2 h3
  exact execRead4_next.mpr ⟨n, _, hn, read4_bytes hin h0 h1 h2 h3, rfl⟩

/-- Settles O6: the value is that of `read8`, and the operation only drives its port. -/
theorem read8IsLittleEndian : Obligations.Read8IsLittleEndian := by
  intro s n o c0 c1 c2 c3 c4 c5 c6 c7 hn hin h0 h1 h2 h3 h4 h5 h6 h7
  exact execRead8_next.mpr ⟨n, _, hn, read8_bytes hin h0 h1 h2 h3 h4 h5 h6 h7, rfl⟩

end Sys2Proof.Machine

/-!
PROOFS. The host commands and the start of a call: what a write to `CMD` does (spec/42 R112), the seed and the length
(R110, R113 to R115), and the three short classes (R116 to R119).
-/

namespace Sys2Proof.Machine

/-! ## A `CMD` word by its fields (R75, R112) -/

/-- The decoder's mask reads the three fields: bits 7:5 and `OP` give a reserved word, and `OP` the command. -/
theorem decode_command_fields (w : BitVec 8) :
    decode (.command w) =
      if w.extractLsb' 5 3 ≠ 0#3 ∨ 2 ≤ (w.extractLsb' 0 4).toNat then .rejected .reservedCommand
      else if w.extractLsb' 0 4 = 0#4 then .instr (.nop (w.extractLsb' 4 1))
      else .instr (.start (w.extractLsb' 4 1)) := by
  revert w
  decide

theorem writeCommand_of_instr {w : BitVec 8} {i : Instr} (s : State) (h : decode (.command w) = .instr i) :
    writeCommand w s = exec i s := by
  simp only [writeCommand, h]

theorem writeCommand_of_rejected {w : BitVec 8} {why : Rejection} (s : State)
    (h : decode (.command w) = .rejected why) : writeCommand w s = .next s.rejectCommand := by
  simp only [writeCommand, h]

/-- Settles O11: both forms of `NOP` are the one arm that answers the state it is given. -/
theorem nopHasNoEffect : Obligations.NopHasNoEffect := fun _ _ => rfl

/-- While a call runs, `START` is rejected (R112). -/
theorem execStart_running (var : BitVec 1) {s : State} (h : s.phase ≠ Phase.idle ∧ s.phase ≠ Phase.done) :
    execStart var s = .next s.rejectCommand :=
  if_neg (not_or.mpr h)

/-- A `START` before both inputs are written is rejected in any phase (R112). -/
theorem execStart_unwritten (var : BitVec 1) {s : State} (h : s.seedIn = none ∨ s.lenIn = none) :
    execStart var s = .next s.rejectCommand := by
  rcases execStart_cases var s with rejected | ⟨seed, len, -, hseed, hlen, -⟩
  · exact rejected
  · simp [hseed, hlen] at h

/-- Settles O10: a reserved word, `NOP`, and the four ways a `START` can go. -/
theorem commandWriteRule : Obligations.CommandWriteRule := by
  intro w s
  have hdecode := decode_command_fields w
  split_ifs at hdecode ⊢ with reserved nop running unwritten
  · exact writeCommand_of_rejected s hdecode
  · rw [writeCommand_of_instr s hdecode]
    exact nopHasNoEffect _ s
  · rw [writeCommand_of_instr s hdecode]
    exact execStart_running _ running
  · rw [writeCommand_of_instr s hdecode]
    exact execStart_unwritten _ unwritten
  · have ready : s.phase = Phase.idle ∨ s.phase = Phase.done := or_iff_not_and_not.mpr running
    obtain ⟨hseed, hlen⟩ := not_or.mp unwritten
    obtain ⟨seed, hseed⟩ := Option.ne_none_iff_exists'.mp hseed
    obtain ⟨len, hlen⟩ := Option.ne_none_iff_exists'.mp hlen
    have accepted := acceptedStartLatchesInputs (w.extractLsb' 4 1) s seed len ready hseed hlen
    rw [← hseed, ← hlen] at accepted
    rw [writeCommand_of_instr s hdecode]
    exact accepted

/-! ## The seed and the length (R110, R113, R115) -/

/-- Settles O58: the word of an integer is its residue, which is not negative. -/
theorem seedNormalisation : Obligations.SeedNormalisation := by
  intro z
  rw [norm64, BitVec.toNat_ofInt, Int.toNat_of_nonneg (Int.emod_nonneg z (by decide))]
  rfl

/-- Settles O14: the new `S0` is `deriveSeed` of the old, which is R111's formula. -/
theorem seedmixDerivesTheSeed : Obligations.SeedmixDerivesTheSeed :=
  fun _ s0 hs0 => execSeedmix_next.mpr ⟨s0, hs0, rfl⟩

/-- The phase `DISPATCH` goes to, by range (R114, R115). -/
theorem classPhase_classOf (n : Word) :
    classPhase (classOf n) =
      if n.toNat = 0 then Phase.ld0
      else if n.toNat < 4 then Phase.ld3
      else if n.toNat ≤ 16 then Phase.ld4
      else Phase.longent := by
  rw [classOf_eq]
  split_ifs <;> rfl

/-- Settles O15: `DISPATCH` writes the phase of the class of `N`. -/
theorem dispatchRoutesByLength : Obligations.DispatchRoutesByLength := by
  intro s n hn
  rw [← classPhase_classOf]
  exact execDispatch_next.mpr ⟨n, hn, rfl⟩

/-! ## The three short classes (R116, R117, R119) -/

/-- Settles O16: `LD0` reads `S0` alone. -/
theorem ld0LoadsTheEmptyKey : Obligations.Ld0LoadsTheEmptyKey :=
  fun _ s0 hs0 => execLd0_next.mpr ⟨s0, hs0, rfl⟩

/-- Settles O17: the value `LD3` reads is that of `read3` at the key's own length. -/
theorem ld3LoadsOneToThreeBytes : Obligations.Ld3LoadsOneToThreeBytes := by
  intro s s0 n b0 b1 b2 hs0 hn h1 h3 hb0 hb1 hb2
  have hread : read3 (s.keyView n) n = .ok _ := read3_bytes h1 h3 (Nat.le_refl _) hb0 hb1 hb2
  exact execLd3_next.mpr ⟨s0, hs0, n, hn, _, hread, rfl⟩

/-- A lane packs its high window above its low window (R119). -/
theorem lane_of_read4 {k : KeyView} {high low x y : Word} (hx : read4 k high.toNat = .ok x)
    (hy : read4 k low.toNat = .ok y) : lane k high low = .ok ((x <<< 32) ||| y) := by
  simp only [lane, hx, hy]

/-- Settles O18: the row of R118 gives the four offsets, each window ends inside the complete key, and two windows
make a lane. -/
theorem ld4PacksFourWindows : Obligations.Ld4PacksFourWindows := by
  intro s s0 n hs0 hn h4 h16 hkey
  obtain ⟨w, hw⟩ := window_isSome h4 h16
  obtain ⟨-, -, hah, hal, hbh, hbl⟩ := window_some hw
  have window_value (o : Nat) (ho : o + 4 ≤ n.toNat) : ∃ x, read4 (s.keyView n) o = .ok x := read4_ok ho hkey
  obtain ⟨w0, hw0⟩ := window_value 0 (by omega)
  obtain ⟨w1, hw1⟩ := window_value (n.toNat / 8 * 4) (by omega)
  obtain ⟨w2, hw2⟩ := window_value (n.toNat - 4) (by omega)
  obtain ⟨w3, hw3⟩ := window_value (n.toNat - 4 - n.toNat / 8 * 4) (by omega)
  have laneA : lane (s.keyView n) w.ah w.al = .ok ((w0 <<< 32) ||| w1) := lane_of_read4 (hah ▸ hw0) (hal ▸ hw1)
  have laneB : lane (s.keyView n) w.bh w.bl = .ok ((w2 <<< 32) ||| w3) := lane_of_read4 (hbh ▸ hw2) (hbl ▸ hw3)
  refine ⟨w0, w1, w2, w3, hw0, hw1, hw2, hw3, ?_⟩
  exact execLd4_next.mpr ⟨s0, hs0, n, hn, w, windowsAt_variantOf.mpr hw, _, laneA, _, laneB, rfl⟩

end Sys2Proof.Machine

/-!
PROOFS. The long path (spec/43_long_input.md): every step of the sequencer and the host keeps the invariant (R140), the
step counts are bounded (R142, R166, R167), and what each operation of the path does (R131 to R136).
-/

namespace Sys2Proof.Machine

/-! ## Every step keeps the invariant (R140, R163, R206) -/

/-- Every action of the host keeps the invariant: a written key stays canonical, an accepted `START` and a reset set the
registers their phases ask for, and no other action writes a register the invariant speaks of (R170, R200). -/
theorem hostStep_inv {act : HostAction} {s t : State} (hinv : s.Inv) (h : hostStep act s = .next t) : t.Inv := by
  obtain ⟨hwf, hs⟩ := hinv
  rcases hostStep_next h with ⟨_, -, rfl⟩ | ⟨_, -, rfl⟩ | ⟨_, _, -, hin, rfl, -⟩ | ⟨_, -, command⟩ | ⟨-, rfl⟩ |
    ⟨-, -, -, -, _, _, _, rfl⟩
  · exact ⟨hwf, hs⟩
  · exact ⟨hwf, hs⟩
  · exact ⟨Memory.wf_writeBytes hin hwf, hs⟩
  · rcases command with rfl | rfl | ⟨_, _, _, -, -, -, rfl⟩
    · exact ⟨hwf, hs⟩
    · exact ⟨hwf, hs⟩
    · exact ⟨hwf, (phaseShape_start (.inl rfl)).mpr ⟨rfl, rfl, rfl⟩⟩
  · exact ⟨Memory.wf_nil, (phaseShape_idle rfl).mpr ⟨rfl, rfl⟩⟩
  · exact ⟨hwf, hs⟩

/-- Settles O41: a step is the sequencer's or the host's, each of which keeps the invariant, and the invariant does not
speak of the turns to come. -/
theorem everyStepKeepsTheInvariant : Obligations.EveryStepKeepsTheInvariant := by
  intro s t hinv h
  have taken (rest : List Turn) : { s with turns := rest }.Inv := hinv
  rcases step_next h with ⟨-, rest, hseq⟩ | ⟨act, rest, -, hhost⟩
  · exact sequencerStep_inv (taken rest) hseq
  · exact hostStep_inv (taken rest) hhost

/-! ## The bounds on the step counts (R142, R166, R167) -/

theorem blk48Steps_le (V : VariantRecord) (n : Nat) : blk48Steps V n ≤ n / 48 := by
  unfold blk48Steps
  split <;> omega

theorem bytesLeft_inclusive {V : VariantRecord} (hV : V.incl48 = true) (n : Nat) : bytesLeft V n = n % 48 := by
  rw [bytesLeft, blk48Steps, if_pos hV]
  omega

theorem bytesLeft_strict {V : VariantRecord} {n : Nat} (hV : V.incl48 = false) (h1 : 1 ≤ n) :
    bytesLeft V n = (n - 1) % 48 + 1 := by
  rw [bytesLeft, blk48Steps, if_neg (by simp [hV])]
  omega

theorem bytesLeft_le (V : VariantRecord) (n : Nat) : bytesLeft V n ≤ 48 := by
  rw [bytesLeft, blk48Steps]
  split <;> omega

theorem blk16Steps_le (V : VariantRecord) (n : Nat) : blk16Steps V n ≤ 2 := by
  have hleft := bytesLeft_le V n
  rw [blk16Steps]
  omega

/-- Five steps frame the long path; the stages add at most `n / 48` `BLK48`, one `FOLD3` and two `BLK16`. -/
theorem callSteps_le (V : VariantRecord) (n : Nat) : callSteps V n ≤ n / 48 + 8 := by
  have h48 := blk48Steps_le V n
  have h16 := blk16Steps_le V n
  unfold callSteps
  split_ifs <;> omega

/-- Settles O46: the bounds hold for every variant record, and the inclusive comparison leaves a remainder modulo 48
from 0 to 47, the strict one from 1 to 48. -/
theorem stepCountsAreBounded : Obligations.StepCountsAreBounded := by
  intro n
  refine ⟨callSteps_le _ n, callSteps_le _ n, fun h17 => ?_⟩
  have leftA : bytesLeft variantA n = n % 48 := bytesLeft_inclusive rfl n
  have leftB : bytesLeft variantB n = (n - 1) % 48 + 1 := bytesLeft_strict rfl (by omega)
  exact ⟨by omega, by omega, by omega, blk16Steps_le _ n, blk16Steps_le _ n⟩

/-! ## `LONGENT` and `FOLD3` (R131, R132, R134) -/

/-- Variant A compares inclusively, Variant B strictly (R131). -/
theorem cond48_variantOf {var : BitVec 1} {i : Nat} :
    cond48 (variantOf var) i = true ↔ (var = 0#1 ∧ 48 ≤ i) ∨ (var = 1#1 ∧ 48 < i) := by
  rcases BitVec.eq_zero_or_eq_one var with rfl | rfl <;> simp [cond48, variantOf, variantA, variantB]

/-- Settles O19: the stage is entered exactly where the variant's comparison holds, and only then is `S0` read. -/
theorem longentEntersTheLongPath : Obligations.LongentEntersTheLongPath := by
  intro s n hn
  simp only [← cond48_variantOf]
  split
  · rename_i hc
    exact fun s0 hs0 => execLongent_next.mpr ⟨n, hn, (if_pos hc).mpr ⟨s0, hs0, rfl⟩⟩
  · rename_i hc
    exact execLongent_next.mpr ⟨n, hn, (if_neg hc).mpr rfl⟩

/-- Settles O21: `FOLD3` reads the three lanes and `I`. -/
theorem fold3FoldsTheLanes : Obligations.Fold3FoldsTheLanes :=
  fun _ s0 s1 s2 i h0 h1 h2 hi => execFold3_next.mpr ⟨s0, h0, s1, h1, s2, h2, i, hi, rfl⟩

/-! ## `BLK48`, `BLK16` and `TAIL` (R133, R135, R136) -/

/-- A sub-block inside a complete key mixes the two words it reads there, eight bytes apart. -/
theorem subBlock_reads {k : KeyView} {o : Word} {first : Nat} (secret acc : Word) (ho : o.toNat = first)
    (hin : first + 16 ≤ k.len) (hlen : k.len < 2 ^ 64) (hk : k.Complete) :
    ∃ x y, read8 k first = .ok x ∧ read8 k (first + 8) = .ok y ∧
      subBlock k o secret acc = .ok (mix (x ^^^ secret) (y ^^^ acc)) := by
  subst ho
  have e8 : (o + 8).toNat = o.toNat + 8 := by bv_omega
  obtain ⟨x, hx⟩ := read8_ok (k := k) (o := o.toNat) (by omega) hk
  obtain ⟨y, hy⟩ := read8_ok (k := k) (o := o.toNat + 8) (by omega) hk
  exact ⟨x, y, hx, hy, by simp only [subBlock, e8, hx, hy]⟩

/-- Settles O20: the three sub-blocks lie one after the other from `P` on, all inside the key, and `I` does not wrap. -/
theorem blk48UpdatesThreeLanes : Obligations.Blk48UpdatesThreeLanes := by
  intro s s0 s1 s2 i p n h0 h1 h2 hi hp hn h48 hin hk
  have hlen : (s.keyView n).len < 2 ^ 64 := n.isLt
  have hin' : p.toNat + 48 ≤ (s.keyView n).len := hin
  have e16 : (p + 16).toNat = p.toNat + 16 := by bv_omega
  have e32 : (p + 32).toNat = p.toNat + 32 := by bv_omega
  have ei : (i - 48).toNat = i.toNat - 48 := by bv_omega
  obtain ⟨r0, r1, hr0, hr1, hb0⟩ := subBlock_reads (o := p) s.variant.k1 s0 rfl (by omega) hlen hk
  obtain ⟨r2, r3, hr2, hr3, hb1⟩ := subBlock_reads s.variant.k2 s1 e16 (by omega) hlen hk
  obtain ⟨r4, r5, hr4, hr5, hb2⟩ := subBlock_reads s.variant.k3 s2 e32 (by omega) hlen hk
  refine ⟨r0, r1, r2, r3, r4, r5, hr0, hr1, hr2, hr3, hr4, hr5, ?_⟩
  rw [← ei]
  exact execBlk48_next.mpr ⟨s0, h0, s1, h1, s2, h2, i, hi, p, hp, n, hn, _, hb0, _, hb1, _, hb2, rfl⟩

/-- Settles O22: the chunk lies inside the key and `I` does not wrap. -/
theorem blk16FoldsOneChunk : Obligations.Blk16FoldsOneChunk := by
  intro s s0 i p n h0 hi hp hn h16 hin hk
  have ei : (i - 16).toNat = i.toNat - 16 := by bv_omega
  obtain ⟨r0, r1, hr0, hr1, hb⟩ := subBlock_reads (k := s.keyView n) (o := p) s.variant.k1 s0 rfl hin n.isLt hk
  refine ⟨r0, r1, hr0, hr1, ?_⟩
  rw [← ei]
  exact execBlk16_next.mpr ⟨s0, h0, i, hi, p, hp, n, hn, _, hb, rfl⟩

/-- Settles O23: the two windows end at `N - 8` and `N`, so the offsets do not wrap. -/
theorem tailLoadsTheLastSixteenBytes : Obligations.TailLoadsTheLastSixteenBytes := by
  intro s s0 n h0 hn h17 hk
  have e16 : (n - 16).toNat = n.toNat - 16 := by bv_omega
  have e8 : (n - 8).toNat = n.toNat - 8 := by bv_omega
  obtain ⟨x, hx⟩ := read8_ok (k := s.keyView n) (show n.toNat - 16 + 8 ≤ n.toNat by omega) hk
  obtain ⟨y, hy⟩ := read8_ok (k := s.keyView n) (show n.toNat - 8 + 8 ≤ n.toNat by omega) hk
  exact ⟨x, y, hx, hy, execTail_next.mpr ⟨s0, h0, n, hn, x, e16 ▸ hx, y, e8 ▸ hy, rfl⟩⟩

end Sys2Proof.Machine

/-!
PROOFS. Finalization and the rendering of the result (spec/44_finalization_format.md): what `FINAL` does (R150), the
shapes of the two hexadecimal renderings (R154, R155) and that a rendering parses back (R156).
-/

namespace Sys2Proof.Machine

/-! ## `FINAL` (R150) -/

/-- Settles O24: the halves are those of `mum`, of which `finalize` makes the result. -/
theorem finalMultipliesAndMixes : Obligations.FinalMultipliesAndMixes :=
  fun _ a b n ha hb hn =>
    ⟨(mum a b).1, (mum a b).2, mum_product a b, execFinal_next.mpr ⟨a, ha, b, hb, n, hn, rfl⟩⟩

/-! ## The digits of a number (R153, R155) -/

theorem hexDigit_mem : ∀ d < 16,
    hexDigit d ∈ ['0', '1', '2', '3', '4', '5', '6', '7', '8', '9', 'a', 'b', 'c', 'd', 'e', 'f'] := by
  decide

theorem digitValue_hexDigit : ∀ d < 16, digitValue (hexDigit d) = some d := by
  decide

@[simp] theorem length_hexDigits (count r : Nat) : (hexDigits count r).length = count := by
  induction count generalizing r with
  | zero => rfl
  | succ count ih => rw [hexDigits, List.length_append, ih, List.length_singleton]

theorem mem_hexDigits {count r : Nat} {c : Char} (h : c ∈ hexDigits count r) : ∃ d < 16, c = hexDigit d := by
  induction count generalizing r with
  | zero => cases h
  | succ count ih =>
    rcases List.mem_append.mp h with high | low
    · exact ih high
    · exact ⟨r % 16, Nat.mod_lt r (by decide), List.mem_singleton.mp low⟩

@[simp] theorem length_hex16 (r : Word) : (hex16 r).length = 16 := length_hexDigits 16 r.toNat

/-! ## Parsing (R156) -/

theorem parseHexFrom_append (acc : Nat) (xs ys : List Char) :
    parseHexFrom acc (xs ++ ys) = (parseHexFrom acc xs).bind (parseHexFrom · ys) := by
  induction xs generalizing acc with
  | nil => rfl
  | cons c cs ih =>
    simp only [List.cons_append, parseHexFrom]
    cases digitValue c with
    | none => rfl
    | some d => exact ih (acc * 16 + d)

/-- The last digit has the weight 1 and those before it make up the quotient. -/
theorem parseHex_hexDigits {count r : Nat} (h : r < 16 ^ count) : parseHex (hexDigits count r) = some r := by
  induction count generalizing r with
  | zero => rw [Nat.lt_one_iff.mp h]; rfl
  | succ count ih =>
    have high : parseHexFrom 0 (hexDigits count (r / 16)) = some (r / 16) := ih (by omega)
    have low : digitValue (hexDigit (r % 16)) = some (r % 16) := digitValue_hexDigit _ (Nat.mod_lt r (by decide))
    rw [parseHex, hexDigits, parseHexFrom_append, high]
    simp only [Option.bind_some, parseHexFrom, low, Nat.div_add_mod']

theorem parseHex_hex16 (r : Word) : parseHex (hex16 r) = some r.toNat :=
  parseHex_hexDigits r.isLt

theorem parseHex_zero_cons (cs : List Char) : parseHex ('0' :: cs) = parseHex cs := rfl

theorem parseHex_dropWhile_zero (cs : List Char) : parseHex (cs.dropWhile (· == '0')) = parseHex cs := by
  induction cs with
  | nil => rfl
  | cons c cs ih =>
    by_cases hc : c = '0'
    · subst hc
      rw [List.dropWhile_cons_of_pos rfl, parseHex_zero_cons, ih]
    · rw [List.dropWhile_cons_of_neg (by simpa using hc)]

/-! ## The rendering without leading zeros (R154) -/

/-- `hexmin` is the sixteen digits without the leading zeros, but "0" where no digit is left. -/
theorem hexmin_cases (r : Word) :
    (hexmin r = ['0'] ∧ (hex16 r).dropWhile (· == '0') = []) ∨
    (hexmin r = (hex16 r).dropWhile (· == '0') ∧ hexmin r ≠ []) := by
  unfold hexmin
  split
  · rename_i hnone
    exact .inl ⟨rfl, hnone⟩
  · rename_i hsome
    exact .inr ⟨rfl, hsome⟩

theorem parseHex_hexmin (r : Word) : parseHex (hexmin r) = some r.toNat := by
  rw [← parseHex_hex16 r, ← parseHex_dropWhile_zero (hex16 r)]
  rcases hexmin_cases r with ⟨hzero, hnone⟩ | ⟨hdigits, -⟩
  · rw [hzero, hnone]
    rfl
  · rw [hdigits]

theorem length_hexmin (r : Word) : 1 ≤ (hexmin r).length ∧ (hexmin r).length ≤ 16 := by
  rcases hexmin_cases r with ⟨hzero, -⟩ | ⟨hdigits, hne⟩
  · simp [hzero]
  · refine ⟨List.length_pos_iff.mpr hne, ?_⟩
    rw [hdigits, ← length_hex16 r]
    exact List.length_dropWhile_le _ _

/-- `dropWhile` stops at an element it does not drop. -/
theorem eq_false_of_head?_dropWhile {p : Char → Bool} {cs : List Char} {c : Char}
    (h : (cs.dropWhile p).head? = some c) : p c = false := by
  have hstop := List.head?_dropWhile_not p cs
  rwa [h] at hstop

/-- A leading zero is left only in "0", which parses to 0. -/
theorem hexmin_of_head_zero {r : Word} (h : (hexmin r).head? = some '0') : hexmin r = ['0'] ∧ r = 0 := by
  rcases hexmin_cases r with ⟨hzero, -⟩ | ⟨hdigits, -⟩
  · have hparse : parseHex ['0'] = some r.toNat := by rw [← hzero, parseHex_hexmin]
    exact ⟨hzero, BitVec.eq_of_toNat_eq (Option.some.inj hparse).symm⟩
  · rw [hdigits] at h
    exact absurd (eq_false_of_head?_dropWhile h) (by decide)

theorem mem_hexmin {r : Word} {c : Char} (h : c ∈ hexmin r) : ∃ d < 16, c = hexDigit d := by
  rcases hexmin_cases r with ⟨hzero, -⟩ | ⟨hdigits, -⟩
  · exact ⟨0, by decide, List.mem_singleton.mp (hzero ▸ h)⟩
  · exact mem_hexDigits ((List.dropWhile_sublist _).subset (hdigits ▸ h))

/-! ## The rendering of a variant record (R153) -/

theorem fmt_variantA (r : Word) : fmt variantA r = hexmin r :=
  if_neg Bool.false_ne_true

theorem fmt_variantB (r : Word) : fmt variantB r = hex16 r :=
  if_pos rfl

theorem fmt_cases (V : VariantRecord) (r : Word) : fmt V r = hex16 r ∨ fmt V r = hexmin r :=
  ite_eq_or_eq _ _ _

/-- Settles O60: the sixteen digits parse back by induction on their number, and leading zeros do not count. -/
theorem formattedResultParsesBack : Obligations.FormattedResultParsesBack := by
  intro V r
  rcases fmt_cases V r with h | h <;> rw [h]
  · exact parseHex_hex16 r
  · exact parseHex_hexmin r

/-- Settles O59: Variant B pads (`hex16`), Variant A does not (`hexmin`), and both write digits only. -/
theorem formattedShapes : Obligations.FormattedShapes := by
  intro r
  rw [fmt_variantA, fmt_variantB]
  have ⟨hpos, hle⟩ := length_hexmin r
  refine ⟨length_hex16 r, hpos, hle, hexmin_of_head_zero, fun V c hc => ?_⟩
  have hdigit : ∃ d < 16, c = hexDigit d := by
    rcases fmt_cases V r with h | h <;> rw [h] at hc
    · exact mem_hexDigits hc
    · exact mem_hexmin hc
  obtain ⟨d, hd, rfl⟩ := hdigit
  exact hexDigit_mem d hd

end Sys2Proof.Machine

/-!
PROOFS. The call as a whole (spec/45_call_sequence.md): what a step is on the sequencer's turn and on the host's (R164,
R165, R170), the successor of each phase (R163), and the agreement of the sequencer with R161's function (R162).
-/

namespace Sys2Proof.Machine

/-! ## The sequencer alone (R162, R166, R169) -/

/-- Once `DONE`, the byte R169 gives. -/
theorem State.status_of_done {s : State} (h : s.phase = Phase.done) :
    s.status = 0x02#8 ||| (s.var.setWidth 8 <<< 3) ||| ((BitVec.ofBool s.perr).setWidth 8 <<< 2) := by
  have hdone : s.done = true := decide_eq_true h
  have hbusy : s.busy = false := Bool.eq_false_of_not_eq_true (not_busy_of_idle_or_done (.inr h))
  unfold State.status
  rw [hdone, hbusy]
  generalize s.var = var, s.perr = perr
  revert var perr
  decide

/-- Settles O43: R161's function has a value on the complete key, the sequencer finishes with it, and it leaves `VAR` and
`PERR`. -/
theorem sequencerComputesWyhash : Obligations.SequencerComputesWyhash := by
  intro s seed n hbegun hturns
  have ⟨_, _, _, hcomplete⟩ := hbegun
  obtain ⟨r, hr⟩ := wyhashCore_ok (k := s.keyView n) s.var seed hcomplete n.isLt
  obtain ⟨hbusy, t, hrun, hdone, hresult, hvar, hperr⟩ := hbegun.finishes hturns ⟨rfl, fun _ _ => rfl⟩ hr
  refine ⟨hbusy, t, r, hrun, hdone, hresult, hr, ?_, fun ⟨_, hclear, _⟩ => ⟨hdone, hperr.trans hclear⟩⟩
  rw [State.status_of_done hdone, hvar, hperr]

/-! ## The sequencer's turn (R164, R165 a) -/

theorem step_of_no_turn {s : State} (h : s.turns = []) : step s = sequencerStep s := by
  simp only [step, takeTurn, h]

theorem step_of_sequencer {s : State} {rest : List Turn} (h : s.turns = .sequencer :: rest) :
    step s = sequencerStep { s with turns := rest } := by
  simp only [step, takeTurn, h]

theorem sequencerStep_persists (s : State) (h : s.phase = Phase.idle ∨ s.phase = Phase.done) :
    sequencerStep s = .next s := by
  simp only [sequencerStep, decode_phase_noOperation.mpr h]

theorem decode_phase_reserved : ∀ p : BitVec 4, 0xD ≤ p.toNat → decode (.phase p) = .rejected .reservedPhase := by
  decide

theorem sequencerStep_stuck (s : State) (h : 0xD ≤ s.phase.toNat) :
    sequencerStep s = .fault (.reservedPhase s.phase) := by
  simp only [sequencerStep, decode_phase_reserved s.phase h]

/-- Settles O26: on either form of the sequencer's turn the step is the sequencer's, which runs the phase's operation. -/
theorem stepRunsThePhaseOperation : Obligations.StepRunsThePhaseOperation := fun _ _ hi =>
  ⟨fun hturns => (step_of_no_turn hturns).trans (sequencerStep_of_decode hi),
    fun _ hturns => (step_of_sequencer hturns).trans (sequencerStep_of_decode hi)⟩

/-- Settles O28: on either form of the sequencer's turn the step is the sequencer's, which has no operation to run. -/
theorem sequencerWithoutStep : Obligations.SequencerWithoutStep := by
  refine fun s => ⟨fun hturns => ?_, fun rest hturns => ?_⟩
  · rw [step_of_no_turn hturns]
    exact ⟨sequencerStep_persists s, sequencerStep_stuck s⟩
  · rw [step_of_sequencer hturns]
    exact ⟨sequencerStep_persists { s with turns := rest }, sequencerStep_stuck { s with turns := rest }⟩

/-! ## The host's writes and reads (R165 b, R170) -/

/-- Settles O27: the step is the write of the word, which the decoder reads as a command or as a reserved word. -/
theorem stepRunsTheCommandWord : Obligations.StepRunsTheCommandWord := by
  intro s w rest hturns
  have hstep : step s = writeCommand w { s with turns := rest } := step_of_host hturns
  refine ⟨hstep, fun i hi => hstep.trans (writeCommand_of_instr _ hi), fun reserved => ?_⟩
  have hdecode := decode_command_fields w
  rw [if_pos reserved] at hdecode
  exact hstep.trans (writeCommand_of_rejected _ hdecode)

/-- Settles O29: the step is the host's action, made on the state from which its turn has been taken. -/
theorem hostWritesOfRegisters : Obligations.HostWritesOfRegisters := fun _ _ _ _ =>
  ⟨step_of_host, step_of_host, step_of_host, step_of_host⟩

/-- A write of key bytes inside the offset space completes outside a call, and at `N` and above in any phase (R55). -/
theorem writeKey_completes {o : Word} {bytes : List Byte} {s : State} (hin : o.toNat + bytes.length ≤ 2 ^ 64)
    (hfree : s.busy = false ∨ ∀ n, s.n = some n → n.toNat ≤ o.toNat) :
    writeKey o bytes s = .next { s with key := s.key.writeBytes o.toNat bytes } := by
  have hallowed : (s.busy && !bytes.isEmpty && (s.n.any fun n => decide (o.toNat < n.toNat))) = false := by
    rcases hfree with hidle | habove
    · simp [hidle]
    · have hnot : (s.n.any fun n => decide (o.toNat < n.toNat)) = false := by
        cases hn : s.n with
        | none => rfl
        | some n => exact decide_eq_false (Nat.not_lt.mpr (habove n hn))
      rw [hnot, Bool.and_false]
  rw [writeKey, if_neg (Nat.not_lt.mpr hin), hallowed, if_neg Bool.false_ne_true]

/-- Settles O30: the write completes, and the laws of the key space say what its offsets then read. -/
theorem hostWritesOfTheKey : Obligations.HostWritesOfTheKey := by
  intro s o bytes rest hturns hwf hin hfree
  exact ⟨s.key.writeBytes o.toNat bytes, (step_of_host hturns).trans (writeKey_completes hin hfree),
    Memory.wf_writeBytes hin hwf, fun _ hj => Memory.read_writeBytes_same hin hwf hj,
    fun _ hout => Memory.read_writeBytes_other hin hwf hout⟩

/-- Settles O33: each of the four reads is `readOrFree` of what the register holds, nothing for `CMD`. -/
theorem hostReadsOfRegisters : Obligations.HostReadsOfRegisters := by
  intro s rest r x hturns hx
  have hread : step s = .next (State.readOrFree { s with turns := rest } r x) := by
    rw [step_of_host hturns]
    rcases hx with ⟨rfl, rfl⟩ | ⟨rfl, rfl⟩ | ⟨rfl, rfl⟩ | ⟨rfl, rfl⟩ <;> rfl
  refine ⟨fun v hv => ?_, fun hx => ⟨Config.freeRead s.draws, ?_⟩⟩
  · rw [hread, hv, State.readOrFree_some]
    rfl
  · rw [hread, hx, State.readOrFree_none]
    rfl

/-! ## What the host leaves of a call (R165 b) -/

/-- The registers of a call, `VAR` and `PHASE` are the same in both states (R165). -/
def SameDatapath (s t : State) : Prop :=
  t.s0 = s.s0 ∧ t.s1 = s.s1 ∧ t.s2 = s.s2 ∧ t.a = s.a ∧ t.b = s.b ∧ t.n = s.n ∧ t.i = s.i ∧ t.p = s.p ∧
    t.result = s.result ∧ t.var = s.var ∧ t.phase = s.phase

theorem SameDatapath.refl (s : State) : SameDatapath s s := ⟨rfl, rfl, rfl, rfl, rfl, rfl, rfl, rfl, rfl, rfl, rfl⟩

theorem SameDatapath.phase {s t : State} (h : SameDatapath s t) : t.phase = s.phase := by
  obtain ⟨-, -, -, -, -, -, -, -, -, -, hphase⟩ := h
  exact hphase

/-- Short of reset, a host action leaves the datapath, but for an accepted `START` (R112, R165). -/
theorem hostStep_datapath {act : HostAction} {s t : State} (h : hostStep act s = .next t) (hr : act ≠ .reset) :
    SameDatapath s t ∨
    ∃ w, act = .wrCmd w ∧ (s.phase = Phase.idle ∨ s.phase = Phase.done) ∧ t.phase = Phase.seedmix := by
  rcases hostStep_next h with ⟨_, -, rfl⟩ | ⟨_, -, rfl⟩ | ⟨_, _, -, -, rfl, -⟩ | ⟨w, hw, command⟩ | ⟨hreset, -⟩ |
    ⟨-, -, -, -, _, _, _, rfl⟩
  · exact .inl (.refl s)
  · exact .inl (.refl s)
  · exact .inl (.refl s)
  · rcases command with rfl | rfl | ⟨_, _, _, hp, -, -, rfl⟩
    · exact .inl (.refl t)
    · exact .inl (.refl s)
    · exact .inr ⟨w, hw, hp, rfl⟩
  · exact absurd hreset hr
  · exact .inl (.refl s)

/-- Settles O49: the host's step is its action, and taking its turn leaves the datapath. -/
theorem hostActionsLeaveTheDatapath : Obligations.HostActionsLeaveTheDatapath := by
  intro s t h hhost hr
  obtain ⟨act, rest, hturns, hstep⟩ := step_of_hostNext hhost
  rcases hostStep_datapath (hstep ▸ h) (ne_reset_of_not_resetNext hturns hr) with same | ⟨w, rfl, hp, hstart⟩
  · exact .inr same
  · exact .inl ⟨commandNext_of_wrCmd hturns, hp, hstart⟩

/-! ## The successor of each phase (R163) -/

/-- A completed sequencer's step in a phase that is an operation's code is that operation. -/
theorem exec_of_phase {s t : State} (i : Instr) (h : sequencerStep s = .next t) (hp : encode i = .phase s.phase) :
    exec i s = .next t := by
  rw [← sequencerStep_of_decode (hp ▸ decode_encode i)]
  exact h

theorem execDispatch_phase {s t : State} (h : execDispatch s = .next t) : ∃ n, s.n = some n ∧
    t.phase = if n.toNat = 0 then Phase.ld0 else if n.toNat ≤ 3 then Phase.ld3
      else if n.toNat ≤ 16 then Phase.ld4 else Phase.longent := by
  obtain ⟨n, hn, rfl⟩ := execDispatch_next.mp h
  have hlt : n.toNat < 4 ↔ n.toNat ≤ 3 := Nat.lt_succ_iff
  exact ⟨n, hn, by simp only [classPhase_classOf, hlt]⟩

theorem execLongent_phase {s t : State} (h : execLongent s = .next t) : ∃ n, s.n = some n ∧
    t.phase = if cond48 s.variant n.toNat then Phase.blk48 else Phase.blk16 := by
  obtain ⟨n, hn, ht⟩ := execLongent_next.mp h
  refine ⟨n, hn, ?_⟩
  split at ht
  next hc =>
    obtain ⟨_, -, rfl⟩ := ht
    exact (if_pos hc).symm
  next hc =>
    subst ht
    exact (if_neg hc).symm

theorem execLoads_phase {s t : State} (h : execLd0 s = .next t ∨ execLd3 s = .next t ∨ execLd4 s = .next t) :
    t.phase = Phase.final := by
  rcases h with h | h | h
  · obtain ⟨_, -, rfl⟩ := execLd0_next.mp h
    rfl
  · obtain ⟨_, -, _, -, _, -, rfl⟩ := execLd3_next.mp h
    rfl
  · obtain ⟨_, -, _, -, _, -, _, -, _, -, rfl⟩ := execLd4_next.mp h
    rfl

theorem reset_of_resetNext {s : State} (h : s.resetNext = true) : ∃ rest, s.turns = .host .reset :: rest := by
  unfold State.resetNext at h
  split at h
  next rest hturns => exact ⟨rest, hturns⟩
  next => cases h

/-- On the host's turn `PHASE` stays, or goes to `SEEDMIX` by an accepted `START`, or to `IDLE` by reset. -/
theorem hostNext_phase {s t : State} (h : step s = .next t) (hhost : s.sequencerNext = false) :
    t.phase = s.phase ∨
    (s.commandNext = true ∧ (s.phase = Phase.idle ∨ s.phase = Phase.done) ∧ t.phase = Phase.seedmix) ∨
    (s.resetNext = true ∧ t.phase = Phase.idle) := by
  cases hr : s.resetNext with
  | false =>
    rcases hostActionsLeaveTheDatapath s t h hhost hr with started | same
    · exact .inr (.inl started)
    · exact .inl (SameDatapath.phase same)
  | true =>
    obtain ⟨rest, hturns⟩ := reset_of_resetNext hr
    cases (step_of_host hturns).symm.trans h
    exact .inr (.inr ⟨rfl, rfl⟩)

/-- Settles O47: row by row, the phase's operation is the step, and its law gives the phase it writes. -/
theorem phaseSuccessors : Obligations.PhaseSuccessors := by
  intro s t h
  refine ⟨fun hnext => ?_, hostNext_phase h⟩
  obtain ⟨rest, hstep⟩ := step_of_sequencerNext hnext
  have hseq : sequencerStep { s with turns := rest } = .next t := hstep ▸ h
  have run (i : Instr) (p : BitVec 4) (hi : encode i = .phase p) (hp : s.phase = p) :
      exec i { s with turns := rest } = .next t := exec_of_phase i hseq (hi.trans (congrArg Code.phase hp.symm))
  refine ⟨fun hp => ?_, fun hp => ?_, fun hp => ?_, fun hp => ?_, fun hp => ?_, fun hp => ?_, fun hp => ?_,
    fun hp => ?_, fun hp => ?_, fun hp => ?_⟩
  · cases (sequencerStep_persists { s with turns := rest } hp).symm.trans hseq
    rfl
  · obtain ⟨_, -, rfl⟩ := execSeedmix_next.mp (run .seedmix _ rfl hp)
    rfl
  · exact execDispatch_phase (s := { s with turns := rest }) (run .dispatch _ rfl hp)
  · exact execLoads_phase (hp.imp (run .ld0 _ rfl) (Or.imp (run .ld3 _ rfl) (run .ld4 _ rfl)))
  · exact execLongent_phase (s := { s with turns := rest }) (run .longent _ rfl hp)
  · obtain ⟨_, -, _, -, _, -, i, -, _, -, _, -, _, -, _, -, _, -, rfl⟩ := execBlk48_next.mp (run .blk48 _ rfl hp)
    exact ⟨i - 48, rfl, rfl⟩
  · obtain ⟨_, -, _, -, _, -, i, hi, rfl⟩ := execFold3_next.mp (run .fold3 _ rfl hp)
    exact ⟨i, hi, rfl⟩
  · obtain ⟨_, -, i, -, _, -, _, -, _, -, rfl⟩ := execBlk16_next.mp (run .blk16 _ rfl hp)
    exact ⟨i - 16, rfl, rfl⟩
  · obtain ⟨_, -, _, -, _, -, _, -, rfl⟩ := execTail_next.mp (run .tail _ rfl hp)
    rfl
  · obtain ⟨_, -, _, -, _, -, rfl⟩ := execFinal_next.mp (run .final _ rfl hp)
    rfl

end Sys2Proof.Machine

/-!
PROOFS. The exceptions of the command interface (spec/60_exceptions.md): a rejected `START` (R181, R186).
-/

namespace Sys2Proof.Machine

/-- Settles O13: a busy block is in neither `IDLE` nor `DONE`, and `START` is rejected there; an unwritten input
rejects it in any phase. -/
theorem rejectedStartSetsPerrOnly : Obligations.RejectedStartSetsPerrOnly := by
  intro var s h
  rcases h with hbusy | hunwritten
  · have running : s.phase ≠ Phase.idle ∧ s.phase ≠ Phase.done :=
      not_or.mp fun hp => not_busy_of_idle_or_done hp hbusy
    exact execStart_running var running
  · exact execStart_unwritten var hunwritten

end Sys2Proof.Machine

/-!
PROOFS. Reset and hazards (spec/70_reset_and_hazards.md): reset from every state (R200), what only reset does (R201),
and the phase path as a function of four registers (R211).
-/

namespace Sys2Proof.Machine

/-! ## The phase path (R211) -/

/-- The registers the phase path is made of. -/
structure PhasePath where
  phase : BitVec 4
  var : BitVec 1
  n : Option Word
  i : Option Word

/-- The path registers of a state. -/
def State.path (s : State) : PhasePath := { phase := s.phase, var := s.var, n := s.n, i := s.i }

/-- The path registers after a chunk of `size` bytes: `PHASE` is `again` where the bytes left pass the loop's test, else
`after` (R133, R135). -/
def PhasePath.chunk (q : PhasePath) (size : Word) (test : Word → Bool) (again after : BitVec 4) : PhasePath :=
  { q with i := q.i.map (· - size), phase := if holds (q.i.map (· - size)) test then again else after }

/-- The path registers after a sequencer step (R163): a function of the path registers alone. In a reserved phase,
or where a register it looks at holds no value, the step stops (R78 a, R14) and this value has no meaning. -/
def PhasePath.next (q : PhasePath) : PhasePath :=
  let more48 (i : Word) : Bool := cond48 (variantOf q.var) i.toNat
  let more16 (i : Word) : Bool := decide (16 < i.toNat)
  if q.phase = Phase.seedmix then { q with phase := Phase.dispatch }
  else if q.phase = Phase.dispatch then { q with phase := classPhase (classOf (q.n.getD 0)) }
  else if q.phase = Phase.longent then
    { q with i := q.n, phase := if holds q.n more48 then Phase.blk48 else Phase.blk16 }
  else if q.phase = Phase.blk48 then q.chunk 48 more48 Phase.blk48 Phase.fold3
  else if q.phase = Phase.fold3 then { q with phase := if holds q.i more16 then Phase.blk16 else Phase.tail }
  else if q.phase = Phase.blk16 then q.chunk 16 more16 Phase.blk16 Phase.tail
  else if q.phase = Phase.final then { q with phase := Phase.done }
  else if q.phase = Phase.ld0 ∨ q.phase = Phase.ld3 ∨ q.phase = Phase.ld4 ∨ q.phase = Phase.tail then
    { q with phase := Phase.final }
  else q

theorem holds_some (v : Word) (test : Word → Bool) : holds (some v) test = test v := rfl

theorem classPhase_ne_idle (c : LengthClass) : classPhase c ≠ Phase.idle := by
  cases c <;> decide

/-- A completed sequencer step moves the path registers by `PhasePath.next`, whatever the key, the seed and the lanes
hold (R211). -/
theorem sequencerStep_path {s t : State} (h : sequencerStep s = .next t) : t.path = s.path.next := by
  cases sequencerStep_move h with
  | persists hp ht =>
    rcases hp with hp | hp <;> simp [ht, State.path, PhasePath.next, hp]
  | seedmix hp he =>
    obtain ⟨_, -, rfl⟩ := execSeedmix_next.mp he
    simp [State.path, PhasePath.next, hp]
  | dispatch hp he =>
    obtain ⟨n, hn, rfl⟩ := execDispatch_next.mp he
    simp [State.path, PhasePath.next, hp, hn]
  | ld0 hp he =>
    obtain ⟨_, -, rfl⟩ := execLd0_next.mp he
    simp [State.path, PhasePath.next, hp]
  | ld3 hp he =>
    obtain ⟨_, -, _, -, _, -, rfl⟩ := execLd3_next.mp he
    simp [State.path, PhasePath.next, hp]
  | ld4 hp he =>
    obtain ⟨_, -, _, -, _, -, _, -, _, -, rfl⟩ := execLd4_next.mp he
    simp [State.path, PhasePath.next, hp]
  | longent hp he =>
    obtain ⟨n, hn, hstage⟩ := execLongent_next.mp he
    split at hstage
    next hc =>
      rw [State.variant] at hc
      obtain ⟨_, -, rfl⟩ := hstage
      simp [State.path, PhasePath.next, holds_some, hp, hn, hc]
    next hc =>
      rw [State.variant] at hc
      subst hstage
      simp [State.path, PhasePath.next, holds_some, hp, hn, hc]
  | blk48 hp he =>
    obtain ⟨_, -, _, -, _, -, i, hi, _, -, _, -, _, -, _, -, _, -, rfl⟩ := execBlk48_next.mp he
    simp [State.path, PhasePath.next, PhasePath.chunk, holds_some, State.variant, hp, hi]
  | fold3 hp he =>
    obtain ⟨_, -, _, -, _, -, i, hi, rfl⟩ := execFold3_next.mp he
    simp [State.path, PhasePath.next, holds_some, hp, hi]
  | blk16 hp he =>
    obtain ⟨_, -, i, hi, _, -, _, -, _, -, rfl⟩ := execBlk16_next.mp he
    simp [State.path, PhasePath.next, PhasePath.chunk, holds_some, hp, hi]
  | tail hp he =>
    obtain ⟨_, -, _, -, _, -, _, -, rfl⟩ := execTail_next.mp he
    simp [State.path, PhasePath.next, hp]
  | final hp he =>
    obtain ⟨_, -, _, -, _, -, rfl⟩ := execFinal_next.mp he
    simp [State.path, PhasePath.next, hp]

/-- Taking the turn leaves the path registers, so the whole step moves them by `PhasePath.next`. -/
theorem step_path {s t : State} (hturn : s.sequencerNext = true) (h : step s = .next t) : t.path = s.path.next := by
  obtain ⟨rest, hstep⟩ := step_of_sequencerNext hturn
  exact sequencerStep_path (s := { s with turns := rest }) (hstep ▸ h)

/-- Settles O55: both blocks move their path registers by the same function, from the same values. -/
theorem phasePathIgnoresKeyAndSeed : Obligations.PhasePathIgnoresKeyAndSeed := by
  intro s s' t t' hphase hvar hn hi hturn hturn' h h'
  have hstart : s.path = s'.path := by simp only [State.path, hphase, hvar, hn, hi]
  have hend : t.path = t'.path :=
    calc t.path = s.path.next := step_path hturn h
      _ = s'.path.next := congrArg PhasePath.next hstart
      _ = t'.path := (step_path hturn' h').symm
  exact ⟨congrArg PhasePath.phase hend, congrArg PhasePath.var hend, congrArg PhasePath.n hend,
    congrArg PhasePath.i hend⟩

/-! ## What only reset does (R201) -/

/-- No row of R163 leads to `IDLE` from another phase. -/
theorem PhasePath.next_phase_ne_idle {q : PhasePath} (hne : q.phase ≠ Phase.idle) : q.next.phase ≠ Phase.idle := by
  simp only [PhasePath.next, PhasePath.chunk]
  split_ifs <;> simp [classPhase_ne_idle, hne]

/-- A host action short of reset leaves `PERR`, or is a write to `CMD` and sets it (R28, R181). -/
theorem hostStep_perr {act : HostAction} {s t : State} (h : hostStep act s = .next t) (hr : act ≠ .reset) :
    t.perr = s.perr ∨ (∃ w, act = .wrCmd w) ∧ t.perr = true := by
  rcases hostStep_next h with ⟨_, -, rfl⟩ | ⟨_, -, rfl⟩ | ⟨_, _, -, -, rfl, -⟩ | ⟨w, hw, command⟩ | ⟨hreset, -⟩ |
    ⟨-, -, -, -, _, _, _, rfl⟩
  · exact .inl rfl
  · exact .inl rfl
  · exact .inl rfl
  · rcases command with rfl | rfl | ⟨_, _, _, -, -, -, rfl⟩
    · exact .inl rfl
    · exact .inr ⟨⟨w, hw⟩, rfl⟩
    · exact .inl rfl
  · exact absurd hreset hr
  · exact .inl rfl

/-- Short of reset a step leaves `PERR`, or is a write to `CMD` and sets it: no sequencer step writes `PERR`. -/
theorem step_perr {s t : State} (h : step s = .next t) (hr : s.resetNext = false) :
    t.perr = s.perr ∨ s.commandNext = true ∧ t.perr = true := by
  rcases step_next h with ⟨-, rest, hseq⟩ | ⟨act, rest, hturns, hhost⟩
  · obtain ⟨-, hperr, -⟩ := sequencerStep_frame hseq
    exact .inl hperr
  · rcases hostStep_perr hhost (ne_reset_of_not_resetNext hturns hr) with hperr | ⟨⟨w, rfl⟩, hset⟩
    · exact .inl hperr
    · exact .inr ⟨commandNext_of_wrCmd hturns, hset⟩

/-- Short of reset no step enters `IDLE`. -/
theorem step_phase_ne_idle {s t : State} (h : step s = .next t) (hr : s.resetNext = false)
    (hne : s.phase ≠ Phase.idle) : t.phase ≠ Phase.idle := by
  cases hturn : s.sequencerNext with
  | true =>
    have hpath : t.phase = s.path.next.phase := congrArg PhasePath.phase (step_path hturn h)
    exact hpath ▸ PhasePath.next_phase_ne_idle hne
  | false =>
    rcases hostNext_phase h hturn with same | ⟨-, -, started⟩ | ⟨hreset, -⟩
    · exact same ▸ hne
    · rw [started]
      decide
    · exact absurd (hr.symm.trans hreset) Bool.false_ne_true

/-- Settles O48: short of reset a step leaves or sets `PERR`, and enters `IDLE` from no other phase. -/
theorem onlyResetClearsPerrAndReturnsToIdle : Obligations.OnlyResetClearsPerrAndReturnsToIdle := by
  intro s t h hr
  refine ⟨fun hset => ?_, not_imp_not.mp (step_phase_ne_idle h hr), fun hclear hset => ?_⟩
  · rcases step_perr h hr with same | ⟨-, set⟩
    · exact same.trans hset
    · exact set
  · rcases step_perr h hr with same | ⟨command, -⟩
    · exact absurd (hclear.symm.trans (same.symm.trans hset)) Bool.false_ne_true
    · exact command

/-! ## Reset (R200) -/

/-- Settles O36: the step is the host's reset, which brings the block to the state after reset. -/
theorem resetFromEveryState : Obligations.ResetFromEveryState := fun _ _ => step_of_host

end Sys2Proof.Machine
